-- ==== Sys2Proof/Word.lean ====
section
/-! DEFINITION. The word types of the CONFIG_HW4 accumulator machine: what the spec treats as bits. -/

namespace Sys2Proof

/-- A byte of the instruction stream, 8 bits (00_scope.md R7, 20_memory.md R32). -/
abbrev Byte := BitVec 8

/-- The 32-bit instruction word `W` (30_encoding.md R51). -/
abbrev Word := BitVec 32

/-- The 4-bit operation selector, `W[3:0]` (30_encoding.md R51). -/
abbrev Opcode := BitVec 4

/-- The 28-bit unsigned operand `m`, `W[31:4]` (30_encoding.md R51). -/
abbrev Operand := BitVec 28

/-- Four consecutive bytes of the stream, first byte first (00_scope.md R9 "Chunk"). -/
structure Chunk where
  b0 : Byte
  b1 : Byte
  b2 : Byte
  b3 : Byte
deriving DecidableEq, Repr

/-- The decoder's output: an opcode and an operand (10_state.md R20). -/
structure Fields where
  opcode : Opcode
  operand : Operand
deriving DecidableEq, Repr

end Sys2Proof
end

