-- ==== Sys2Proof/Config.lean ====
section
/-! DEFINITION. The parameters of the hardware (00_scope.md R6) and the toolchain's free values. -/

namespace Sys2Proof

/-- The four parameters fixed when a machine is made (00_scope.md R6, 10_state.md R21). -/
structure Config where
  /-- `MEM_CELLS`: how many cells the data memory has, 0 to 2^28 (D2). -/
  memCells : Nat
  /-- `CELL_BITS`: the width of the accumulator and of a cell, 29 or more (D1). -/
  cellBits : Nat
  /-- `STRICT_LENGTH`: whether leftover bytes fault at boot (D8). -/
  strictLength : Bool
  /-- `PROG_MAX`: the most whole instructions a stream may have (D4). -/
  progMax : Nat
deriving DecidableEq, Repr

/-- The defaults of 00_scope.md R6: 1024 cells of 32 bits, no strict length, 2^30 instructions. -/
def Config.standard : Config :=
  { memCells := 1024, cellBits := 32, strictLength := false, progMax := 2 ^ 30 }

/-- FREE VALUE (log 8). Whether a character that may be white space (`mayBeSpace`) is white space to the
assembler: the spec says to assume nothing of a lone carriage return, a byte-order mark or a non-ASCII space. -/
opaque Config.openSpace : Char → Bool

/-- FREE VALUE (log 8). Whether a character that may end a line (`mayEndLine`) ends a source line. -/
opaque Config.openNewline : Char → Bool

/-- FREE VALUE (log 9). Whether a source line with both defects of 30_encoding.md R64 reports
`SyntaxError` (true) or `UnknownMnemonic` (false): U9 says it may be either. -/
opaque Config.twoDefectsAreSyntaxError : List Char → Bool

end Sys2Proof
end

