-- ==== Sys2Proof/Syntax.lean ====
section
/-! DEFINITION. The instructions: one constructor for each row of spec/opcode_table.json. -/

namespace Sys2Proof

/-- The four instructions of 30_encoding.md R56, each with its one operand `m`. -/
inductive Instr where
  /-- `ldc m`, load-constant, opcode 2 (41_load.md R85). -/
  | ldc (m : Operand)
  /-- `eq m`, equality-test, opcode 7 (43_equality.md R95). -/
  | eq (m : Operand)
  /-- `st m`, store-to-memory, opcode 11 (42_store.md R90). -/
  | st (m : Operand)
  /-- `ldr m`, load-from-memory, opcode 12 (41_load.md R86). -/
  | ldr (m : Operand)
deriving DecidableEq, Repr

/-- An instruction as the assembler holds it before encoding: two integers of any size
(30_encoding.md R63, 90_conflicts.md C5). -/
structure RawInstr where
  opcode : Int
  operand : Int
deriving DecidableEq, Repr

/-- The operand an instruction carries (30_encoding.md R58). -/
def Instr.operand : Instr → Operand
  | .ldc m => m
  | .eq m => m
  | .st m => m
  | .ldr m => m

end Sys2Proof
end

