-- ==== Sys2Proof/WellFormed.lean ====
section
/-! DEFINITION. The checks on plain data: instruction pairs, parameters, values of the cell domain. -/

namespace Sys2Proof

/-- The range invariant of an Instruction value (10_state.md R20): opcode in `[0, 15]`, operand in
`[0, 2^28 - 1]`. The assembler's pairs may break it; the decoder's never do (90_conflicts.md C5). -/
abbrev RawInstr.wf (r : RawInstr) : Prop :=
  (0 ≤ r.opcode ∧ r.opcode < 16) ∧ (0 ≤ r.operand ∧ r.operand < 2 ^ 28)

/-- An instruction is well formed when its operand is in `[0, 2^28 - 1]` (10_state.md R20). The operand is 28
bits by type and no operand value is reserved (30_encoding.md R59), so every `Instr` passes
(`Laws.instr_wf`). -/
abbrev Instr.wf (i : Instr) : Prop := i.operand.toNat < 2 ^ 28

/-- The admitted parameters (00_scope.md R6): at most 2^28 cells, cells of 29 bits or more. -/
abbrev Config.wf (c : Config) : Prop := c.memCells ≤ 2 ^ 28 ∧ 29 ≤ c.cellBits

/-- The cell domain `[-2^(w-1), 2^(w-1) - 1]` of `w`-bit two's complement integers (10_state.md R11). -/
abbrev inCellDomain (w : Nat) (v : Int) : Prop := -2 ^ (w - 1) ≤ v ∧ v < 2 ^ (w - 1)

end Sys2Proof
end

