-- ==== Sys2Proof/Decode.lean ====
section
/-! DEFINITION. The instruction decoder and, after it, the encoder (30_encoding.md R50 to R60). -/

namespace Sys2Proof

/-! ## The decoder -/

/-- The word four bytes spell: little-endian, `W = {b3, b2, b1, b0}` (20_memory.md R33). -/
def wordOfChunk (c : Chunk) : Word := c.b3 ++ c.b2 ++ c.b1 ++ c.b0

/-- The decoder block: `opcode = W[3:0]`, `operand = W[31:4]` (30_encoding.md R53). It is total and
rejects nothing (R54). -/
def decodeFields (c : Chunk) : Fields :=
  { opcode := (wordOfChunk c).extractLsb' 0 4, operand := (wordOfChunk c).extractLsb' 4 28 }

/-- Why bytes give no instruction of the table. -/
inductive DecodeError where
  /-- Raised by `decodeBytes` on fewer than four bytes, with how many there were (30_encoding.md R54).
  Safe: the spec names this failure. The machine's fetch never causes it (40_fetch_decode.md R72). -/
  | malformedInput (given : Nat)
  /-- Raised by `dispatchFields` on one of the twelve opcodes that have no instruction
  (30_encoding.md R59). Safe: the step turns it into the fault of 40_fetch_decode.md R77. -/
  | unknownOpcode (opcode : Opcode)
deriving DecidableEq, Repr

/-- Selection by the opcode alone, with an explicit default (40_fetch_decode.md R74). -/
def dispatchFields (f : Fields) : Except DecodeError Instr :=
  if f.opcode = 2#4 then .ok (.ldc f.operand)
  else if f.opcode = 7#4 then .ok (.eq f.operand)
  else if f.opcode = 11#4 then .ok (.st f.operand)
  else if f.opcode = 12#4 then .ok (.ldr f.operand)
  else .error (.unknownOpcode f.opcode)

/-- From four bytes to an instruction of the table, or the reserved opcode's name. -/
def decode (c : Chunk) : Except DecodeError Instr := dispatchFields (decodeFields c)

/-- The decoder on a byte sequence: the pair of exactly four bytes, or `MalformedInput` if fewer are supplied
(30_encoding.md R54). DESIGN CHOICE (log 19): of more than four bytes, on which the spec gives the decoder no answer, it
is the pair of the first four, with the remaining bytes. -/
def decodeBytes : List Byte → Except DecodeError (Fields × List Byte)
  | b0 :: b1 :: b2 :: b3 :: rest => .ok (decodeFields ⟨b0, b1, b2, b3⟩, rest)
  | short => .error (.malformedInput short.length)

/-- The stream cut into consecutive 4-byte chunks from offset 0; the `LEN mod 4` bytes after the last
whole chunk give none (40_fetch_decode.md R70). -/
def chunksOf : List Byte → List Chunk
  | b0 :: b1 :: b2 :: b3 :: rest => ⟨b0, b1, b2, b3⟩ :: chunksOf rest
  | _ => []

/-- `load_program`: slice the stream and decode each chunk, in order (40_fetch_decode.md R70). -/
def decodeStream (prog : List Byte) : List (Except DecodeError Instr) :=
  (chunksOf prog).map decode

/-! ## The encoder -/

/-- The four bytes of a word, least significant first (30_encoding.md R55). -/
def chunkOfWord (w : Word) : Chunk :=
  { b0 := w.extractLsb' 0 8, b1 := w.extractLsb' 8 8
    b2 := w.extractLsb' 16 8, b3 := w.extractLsb' 24 8 }

/-- `W = (opcode & 0xF) | ((operand & 0x0FFFFFFF) << 4)` (30_encoding.md R55). -/
def wordOfFields (f : Fields) : Word := f.operand ++ f.opcode

/-- The encoder on a pair whose fields have their widths (30_encoding.md R55). -/
def encodeFields (f : Fields) : Chunk := chunkOfWord (wordOfFields f)

/-- The opcode an instruction carries (30_encoding.md R56). -/
def Instr.opcode : Instr → Opcode
  | .ldc _ => 2#4
  | .eq _ => 7#4
  | .st _ => 11#4
  | .ldr _ => 12#4

/-- The pair an instruction is encoded from (30_encoding.md R56). -/
def Instr.fields (i : Instr) : Fields := { opcode := i.opcode, operand := i.operand }

/-- The four bytes of an instruction, in stream order. -/
def encode (i : Instr) : Chunk := encodeFields i.fields

/-- The low bits of two integers of any size: `n mod 2^N`, also for negative `n`
(30_encoding.md R55, D14). -/
def maskRaw (r : RawInstr) : Fields :=
  { opcode := BitVec.ofInt 4 r.opcode, operand := BitVec.ofInt 28 r.operand }

/-- The encoder on arbitrary integers, masked and never rejected (30_encoding.md R55). -/
def encodeRaw (r : RawInstr) : Chunk := encodeFields (maskRaw r)

/-- The bytes of a chunk in stream order. -/
def Chunk.bytes (c : Chunk) : List Byte := [c.b0, c.b1, c.b2, c.b3]

/-! ## The opcode table's words -/

/-- The chunk of an instruction whose low `nbits` bits are those of `w` and whose other bits are 0. -/
def chunkOfTableWord (nbits w : Nat) : Chunk := chunkOfWord (BitVec.ofNat 32 (w % 2 ^ nbits))

/-- What the decoder reads from an instruction whose bits are `w`, bit 0 the least significant bit of
the first byte in the stream. -/
def decodeTableWord (nbits w : Nat) : Option Instr :=
  match decode (chunkOfTableWord nbits w) with
  | .ok i => some i
  | .error _ => none

end Sys2Proof
end

