-- ==== Sys2Proof/Machine/State.lean ====
section
/-! DEFINITION. The state of the machine, its reset value, and the ways a step can stop. -/

namespace Sys2Proof.Machine

/-- The data memory (10_state.md R12): pairs of a cell index and the integer that cell holds, indexes
strictly rising, cells that hold the reset value 0 not listed. A cell is read and written whole and is
never laid out as bytes (20_memory.md R34). -/
abbrev Memory := List (Nat × Int)

/-- What an unlisted cell reads as: the reset value of every cell (10_state.md R12). -/
def Memory.unlisted : Int := 0

/-- The canonical form: indexes strictly rising, and no entry equal to what an unlisted cell reads as. -/
abbrev Memory.wf (mem : Memory) : Prop :=
  mem.Pairwise (fun a b => a.1 < b.1) ∧ ∀ c ∈ mem, c.2 ≠ Memory.unlisted

/-- Which of the three faults was raised (60_exceptions.md R100). -/
inductive Cause where
  | malformedInput
  | unknownInstruction
  | indexFault
deriving DecidableEq, Repr

/-- The fault record `FAULT` when it is not `NONE` (10_state.md R14). -/
structure FaultRecord where
  cause : Cause
  /-- The opcode zero-extended, the index, or the number of leftover bytes. -/
  info : BitVec 28
  /-- The position of the faulting instruction; `N` for `MalformedInput`. -/
  fpc : Nat
deriving DecidableEq, Repr

/-- The machine's state. `acc`, `mem`, `pc` and `fault` are the four items of 10_state.md R10. `cfg` and
`prog` are the read-only fields of the launch that 10_state.md R18 and R21 allow a model: `step` takes
nothing but a state, so they stand here, and no step changes them (log 1, log 2). -/
structure State where
  /-- The parameters `MEM_CELLS`, `CELL_BITS`, `STRICT_LENGTH`, `PROG_MAX`; read-only. -/
  cfg : Config
  /-- `PROG`, the program byte stream, first byte first; read-only. -/
  prog : List Byte
  /-- `ACC`, a signed integer of the cell domain (10_state.md R11; log 3). -/
  acc : Int
  /-- `MEM` (10_state.md R12). -/
  mem : Memory
  /-- `PC`, counted in instructions, with no fixed width (10_state.md R13). -/
  pc : Nat
  /-- `FAULT`: `none` is `NONE` (10_state.md R14). -/
  fault : Option FaultRecord
deriving DecidableEq, Repr

/-- The machine right after reset (70_reset_and_hazards.md R120): `ACC` 0, every cell 0, `PC` 0, `FAULT`
`NONE`, at the default parameters (00_scope.md R6) and with no stream given yet (log 2). -/
def State.reset : State :=
  { cfg := Config.standard, prog := [], acc := 0, mem := [], pc := 0, fault := none }

/-- Why `step` has no next state. Neither is raised by an instruction: the machine's own three faults
are next states whose `fault` field holds the record (60_exceptions.md R107; log 5). -/
inductive Fault where
  /-- Raised by `step` when `FAULT` is `NONE` and `PC` is not below `N`: the run has ended and no step is
  enabled (40_fetch_decode.md R71, R76). Safe: the spec gives such a state no step. -/
  | done
  /-- Raised by `step` when `FAULT` is not `NONE`: the run was aborted and no step is enabled
  (40_fetch_decode.md R71, 60_exceptions.md R108). Safe: the spec gives such a state no step. -/
  | faulted
deriving DecidableEq, Repr

/-- What the model gives no meaning. -/
inductive Refusal where
  /-- Raised by `exec` for an instruction with no meaning yet; no instruction is left so. Safe. -/
  | notModelled (mnemonic : String)
  /-- Raised by `boot` on parameters outside 00_scope.md R6. Safe: the spec admits no such machine. -/
  | badParameters
  /-- Raised by `boot` on more than `PROG_MAX` whole instructions (40_fetch_decode.md R82). Safe. -/
  | programTooLong
  /-- Raised by `preSeed` on an index that names no cell (70_reset_and_hazards.md R124). Safe. -/
  | seedIndexOutOfRange
  /-- Raised by `preSeed` on a value outside the cell domain (70_reset_and_hazards.md R124). Safe. -/
  | seedValueOutOfRange
  /-- Raised by `hostEvent` on loading, pre-seeding or booting a launched machine: the host has no such move
  during a run or after it, and gets one run for each reset (70_reset_and_hazards.md R125, R129). Safe. -/
  | notBeforeRun
  /-- Raised by `hostEvent` on a step, and by `hostRead` on a reading, of a machine that is not booted yet: the
  run is the sixth event of a launch and comes after the checks (70_reset_and_hazards.md R122). Safe. -/
  | notBooted
  /-- Raised by `boot` where the host gave no stream since reset (70_reset_and_hazards.md R122, R130; log 18).
  Safe. -/
  | notLoaded
  /-- Raised by `loadProgram` on a second stream before the same run (70_reset_and_hazards.md R122, R123; log
  18). Safe. -/
  | alreadyLoaded
  /-- Raised by `exportMemory` outside `DONE` (70_reset_and_hazards.md R128, 60_exceptions.md R117). Safe. -/
  | exportNotDone
  /-- Raised by `exportMemory` on a negative bound (70_reset_and_hazards.md R128). Safe. -/
  | exportNegativeBound
  /-- Raised by `hostResult` while a step is enabled (70_reset_and_hazards.md R125). Safe. -/
  | hostDuringRun
  /-- Raised by `inspect` outside `FAULTED` (60_exceptions.md R117). Safe. -/
  | inspectNotFaulted
deriving DecidableEq, Repr

end Sys2Proof.Machine
end

