-- ==== Sys2Proof/Machine/Flags.lean ====
section
/-! DEFINITION. The machine has no flags (10_state.md R15); this is its one comparison. -/

namespace Sys2Proof.Machine

/-- The result of the equality test: the integer 1 or the integer 0 (43_equality.md R95). It compares the
whole values: equality of two integers of the cell domain is equality of all their bits (R96). -/
def equalityResult (a b : Int) : Int := if a = b then 1 else 0

end Sys2Proof.Machine
end

