-- ==== Sys2Proof/Machine/Operands.lean ====
section
/-! DEFINITION. The two uses of the one operand: a constant and a cell index. -/

namespace Sys2Proof.Machine

/-- `zext_CELL_BITS(m)` read as a signed integer (30_encoding.md R58). With the 29 bits or more that
00_scope.md R6 asks for, it is `m` as a natural number (`Laws.constantOperand_eq`). -/
def constantOperand (cellBits : Nat) (m : Operand) : Int := (m.setWidth cellBits).toInt

/-- The operand as a cell index: unsigned, unscaled, no base and no offset (20_memory.md R47). -/
def indexOperand (m : Operand) : Nat := m.toNat

end Sys2Proof.Machine
end

