-- ==== Sys2Proof/Machine/Ops.lean ====
section
/-! DEFINITION. The operations the meanings share: cells, faults, advance, reset, derived predicates. -/

namespace Sys2Proof.Machine

/-! ## Cells -/

/-- The value of the cell at an index (00_scope.md R8 `MEM[i]`). -/
def Memory.read : Memory → Nat → Int
  | [], _ => Memory.unlisted
  | (j, v) :: rest, i => if j = i then v else Memory.read rest i

/-- The memory with one cell written, in canonical form. -/
def Memory.write : Memory → Nat → Int → Memory
  | [], i, v => if v = Memory.unlisted then [] else [(i, v)]
  | (j, w) :: rest, i, v =>
    if i < j then (if v = Memory.unlisted then (j, w) :: rest else (i, v) :: (j, w) :: rest)
    else if i = j then (if v = Memory.unlisted then rest else (i, v) :: rest)
    else (j, w) :: Memory.write rest i v

/-! ## Updates of one field -/

/-- `ACC <- v`. -/
def State.setAcc (s : State) (v : Int) : State := { s with acc := v }

/-- `MEM <- mem`. -/
def State.setMem (s : State) (mem : Memory) : State := { s with mem := mem }

/-- `PC <- PC + 1`, the only way `PC` moves in a run (40_fetch_decode.md R75). -/
def State.advance (s : State) : State := { s with pc := s.pc + 1 }

/-! ## Derived quantities and predicates (10_state.md R19) -/

/-- `N`, the number of whole instructions of `PROG`. -/
def instrCount (prog : List Byte) : Nat := prog.length / 4

/-- `LEN mod 4`, the number of bytes after the last whole chunk (40_fetch_decode.md R70). -/
def leftover (prog : List Byte) : Nat := prog.length % 4

/-- `FAULTED`. -/
abbrev State.isFaulted (s : State) : Prop := s.fault ≠ none

/-- `DONE`. -/
abbrev State.isDone (s : State) : Prop := s.fault = none ∧ s.pc = instrCount s.prog

/-- `RUNNING`: exactly then a step is enabled (40_fetch_decode.md R71). -/
abbrev State.isRunning (s : State) : Prop := s.fault = none ∧ s.pc < instrCount s.prog

/-! ## Taking a fault -/

/-- A fault about to be raised, with what it records (60_exceptions.md R100). -/
inductive Raise where
  | malformedInput (leftoverBytes : Nat)
  | unknownInstruction (opcode : Opcode)
  | indexFault (m : Operand)
deriving DecidableEq, Repr

/-- The kind of a fault. -/
def Raise.cause : Raise → Cause
  | .malformedInput _ => .malformedInput
  | .unknownInstruction _ => .unknownInstruction
  | .indexFault _ => .indexFault

/-- What a fault records: the leftover byte count, the opcode zero-extended, or the operand
(10_state.md R14). -/
def Raise.info : Raise → BitVec 28
  | .malformedInput r => BitVec.ofNat 28 r
  | .unknownInstruction opcode => opcode.setWidth 28
  | .indexFault m => m

/-- Writes `FAULT` and nothing else, with the position to record. -/
def State.raiseAt (s : State) (r : Raise) (fpc : Nat) : State :=
  { s with fault := some { cause := r.cause, info := r.info, fpc := fpc } }

/-- TAKING A FAULT: `raise F(info)` within a step, `FAULT <- (cause(F), info, PC)`; `ACC`, `MEM` and `PC`
keep their values (60_exceptions.md R107). There is no handler and no return (R108): `State.applyReset` is
the one way out. -/
def State.raise (s : State) (r : Raise) : State := s.raiseAt r s.pc

/-- The reset input (70_reset_and_hazards.md R120, R121): every item of state at its reset value, `PROG`
and the parameters untouched. -/
def State.applyReset (s : State) : State := { s with acc := 0, mem := [], pc := 0, fault := none }

/-- The number the `cause` field holds; 0 encodes `NONE` (10_state.md R14). -/
def causeCode : Option FaultRecord → BitVec 2
  | none => 0#2
  | some r =>
    match r.cause with
    | .malformedInput => 1#2
    | .unknownInstruction => 2#2
    | .indexFault => 3#2

/-! ## The memory primitives and the end of an instruction -/

/-- `MemRead(m, 1)`: the bounds check, then the cell (20_memory.md R38). -/
def memRead (s : State) (m : Operand) : Except Raise Int :=
  if s.cfg.memCells ≤ indexOperand m then .error (.indexFault m)
  else .ok (s.mem.read (indexOperand m))

/-- `MemWrite(m, 1, v)`: the bounds check, then the one cell written (20_memory.md R38). -/
def memWrite (s : State) (m : Operand) (v : Int) : Except Raise State :=
  if s.cfg.memCells ≤ indexOperand m then .error (.indexFault m)
  else .ok (s.setMem (s.mem.write (indexOperand m) v))

/-- The end of an instruction: its writes together with `PC <- PC + 1` (40_fetch_decode.md R75), or, where
it raised, the fault taken in the state the instruction started from (60_exceptions.md R107). -/
def finish (s : State) : Except Raise State → Host.Outcome State Fault Refusal
  | .ok t => .next t.advance
  | .error r => .next (s.raise r)

end Sys2Proof.Machine
end

