-- ==== Sys2Proof/Machine/Equality.lean ====
section
/-! DEFINITION. The equality test (43_equality.md). -/

namespace Sys2Proof.Machine

/-- `eq m`: `ACC <- 1` if `ACC` before the step equals `MemRead(m, 1)`, else `0` (43_equality.md R95). -/
def execEq (m : Operand) (s : State) : Host.Outcome State Fault Refusal :=
  finish s ((memRead s m).map fun v => s.setAcc (equalityResult s.acc v))

end Sys2Proof.Machine
end

