-- ==== Sys2Proof/Machine/Load.lean ====
section
/-! DEFINITION. The load instructions (41_load.md). -/

namespace Sys2Proof.Machine

/-- `ldc m`: `ACC <- zext_CELL_BITS(m)`. It cannot fault, whatever `m` is (41_load.md R85). -/
def execLdc (m : Operand) (s : State) : Host.Outcome State Fault Refusal :=
  finish s (.ok (s.setAcc (constantOperand s.cfg.cellBits m)))

/-- `ldr m`: `ACC <- MemRead(m, 1)` (41_load.md R86). -/
def execLdr (m : Operand) (s : State) : Host.Outcome State Fault Refusal :=
  finish s ((memRead s m).map fun v => s.setAcc v)

end Sys2Proof.Machine
end

