-- ==== Sys2Proof/Machine/Store.lean ====
section
/-! DEFINITION. The store instruction (42_store.md). -/

namespace Sys2Proof.Machine

/-- `st m`: `MemWrite(m, 1, ACC)` (42_store.md R90). -/
def execSt (m : Operand) (s : State) : Host.Outcome State Fault Refusal :=
  finish s (memWrite s m s.acc)

end Sys2Proof.Machine
end

