-- ==== Sys2Proof/Machine/Dispatch.lean ====
section
/-! DEFINITION. One arm for each instruction (40_fetch_decode.md R74). -/

namespace Sys2Proof.Machine

def exec (i : Instr) (s : State) : Host.Outcome State Fault Refusal :=
  match i with
  | .ldc m => Sys2Proof.Machine.execLdc m s
  | .eq m => Sys2Proof.Machine.execEq m s
  | .st m => Sys2Proof.Machine.execSt m s
  | .ldr m => Sys2Proof.Machine.execLdr m s

end Sys2Proof.Machine
end

