-- ==== Sys2Proof/Machine/Sequencer.lean ====
section
/-! DEFINITION. The control sequencer: fetch, decode, dispatch (40_fetch_decode.md). -/

namespace Sys2Proof.Machine

/-- `Fetch(p)`: the four bytes at offsets `4p` to `4p + 3` (40_fetch_decode.md R72). For `p < N` all four
lie in the stream, and the sequencer fetches at no other position (log 11). -/
def fetch (prog : List Byte) (p : Nat) : Chunk :=
  { b0 := prog.getD (4 * p) 0#8, b1 := prog.getD (4 * p + 1) 0#8
    b2 := prog.getD (4 * p + 2) 0#8, b3 := prog.getD (4 * p + 3) 0#8 }

/-- The fault for bytes that give no instruction of the table (40_fetch_decode.md R77). -/
def raiseOfDecodeError : DecodeError → Raise
  | .malformedInput given => .malformedInput given
  | .unknownOpcode opcode => .unknownInstruction opcode

/-- Runs what the decoder answered: the instruction's meaning, or the fault of 40_fetch_decode.md R77. -/
def dispatch (d : Except DecodeError Instr) (s : State) : Host.Outcome State Fault Refusal :=
  match d with
  | .ok i => exec i s
  | .error e => .next (s.raise (raiseOfDecodeError e))

/-- One step from a state in which a step is enabled (40_fetch_decode.md R78). -/
def runInstruction (s : State) : Host.Outcome State Fault Refusal :=
  dispatch (decode (fetch s.prog s.pc)) s

/-- The stream with a chunk at position `p`; a stream that is too short is filled with zero bytes. -/
def placeChunk (prog : List Byte) (p : Nat) (c : Chunk) : List Byte :=
  (prog ++ List.replicate (4 * p - prog.length) 0#8).take (4 * p) ++ c.bytes ++ prog.drop (4 * p + 4)

end Sys2Proof.Machine
end

