-- ==== Sys2Proof/Machine/Step.lean ====
section
/-! DEFINITION. One step of the machine, and the placing of a table word for it to run. -/

namespace Sys2Proof.Machine

/-- One step (40_fetch_decode.md R71, R78): enabled exactly when `FAULT == NONE` and `PC < N`. In a `FAULTED`
and in a `DONE` state the machine has no step, which is this model's stop `faulted` or `done` (log 5). -/
def step (s : State) : Host.Outcome State Fault Refusal :=
  if s.isFaulted then .fault .faulted
  else if s.isRunning then runInstruction s
  else .fault .done

/-- `s` with a table word placed where the next step fetches (log 10): the program stream holds it at
position `PC`, and `FAULT` is `NONE`, which an enabled step needs. -/
def State.withFetchWord (s : State) (nbits w : Nat) : State :=
  { s with prog := placeChunk s.prog s.pc (chunkOfTableWord nbits w), fault := none }

end Sys2Proof.Machine
end

