-- ==== Sys2Proof/Machine/Assembler.lean ====
section
/-! DEFINITION. The toolchain around the machine: mnemonics, source grammar, emission (30_encoding.md R60 to
R67). It is software and no step depends on it. -/

namespace Sys2Proof.Machine

/-- The two assembly-time errors (30_encoding.md R64). The machine never raises either. -/
inductive AsmError where
  | malformedLine
  | unknownMnemonic
deriving DecidableEq, Repr

/-! ## The mnemonic table -/

/-- `mnemonic_to_opcode`: exact match in the fixed table (30_encoding.md R60). -/
def mnemonicToOpcode (name : List Char) : Except AsmError Opcode :=
  if name = ['l', 'd', 'c'] then .ok 2#4
  else if name = ['l', 'd', 'r'] then .ok 12#4
  else if name = ['s', 't'] then .ok 11#4
  else if name = ['e', 'q'] then .ok 7#4
  else .error .unknownMnemonic

/-- A number below 100 in decimal digits. -/
def decimalDigits (n : Nat) : List Char :=
  let digit := fun d => Char.ofNat (48 + d)
  if n < 10 then [digit n] else [digit (n / 10 % 10), digit (n % 10)]

/-- `opcode_to_mnemonic`: never fails; the sentinel `unknown(<opcode>)` for the rest (30_encoding.md R60). -/
def opcodeToMnemonic (opcode : Opcode) : List Char :=
  if opcode = 2#4 then ['l', 'd', 'c']
  else if opcode = 12#4 then ['l', 'd', 'r']
  else if opcode = 11#4 then ['s', 't']
  else if opcode = 7#4 then ['e', 'q']
  else ['u', 'n', 'k', 'n', 'o', 'w', 'n', '('] ++ decimalDigits opcode.toNat ++ [')']

/-! ## Characters, lines, tokens -/

/-- The characters other than line feed that may end a line, a point 91_not_in_source.md leaves open: the control
characters vertical tab, form feed, carriage return, the file, group and record separators and next line, and the two
Unicode separators of lines and paragraphs. That these are all is PRESUMED (log 8). -/
def mayEndLine (c : Char) : Bool :=
  let n := c.toNat
  (0x0B ≤ n && n ≤ 0x0D) || (0x1C ≤ n && n ≤ 0x1E) || n == 0x85 || n == 0x2028 || n == 0x2029

/-- The characters other than space and tab that may be white space, a point 91_not_in_source.md leaves open: those that
may end a line, the unit separator, the spaces of Unicode outside ASCII, and the byte-order mark. That these are all is
PRESUMED (log 8): a letter, a digit or a sign of any alphabet is none of them. -/
def mayBeSpace (c : Char) : Bool :=
  let n := c.toNat
  mayEndLine c || n == 0x1F || n == 0xA0 || n == 0x1680 || n == 0x180E || (0x2000 ≤ n && n ≤ 0x200B) ||
    n == 0x202F || n == 0x205F || n == 0x3000 || n == 0xFEFF

/-- Space and tab separate tokens, and the characters that may be white space are open (log 8); no other character
separates (30_encoding.md R61). DESIGN CHOICE (log 8): an open character has one treatment at every place of every text,
so a byte-order mark at the start of a text is treated as one inside it and is never dropped there alone. -/
def isSpace (c : Char) : Bool :=
  c == ' ' || c == '\t' || (mayBeSpace c && Config.openSpace c)

/-- A line feed ends a line, and the characters that may end one are open (log 8); no other character ends a line, in a
comment neither (30_encoding.md R61, R62). DESIGN CHOICE (log 8): an open character has one treatment at every place of
every text, so a lone carriage return is treated as one before a line feed. -/
def isNewline (c : Char) : Bool :=
  c == '\n' || (mayEndLine c && Config.openNewline c)

/-- The pieces between the characters that satisfy `sep`, empty ones included. -/
def splitOn (sep : Char → Bool) : List Char → List (List Char)
  | [] => [[]]
  | c :: rest =>
    if sep c then [] :: splitOn sep rest
    else
      match splitOn sep rest with
      | [] => [[c]]
      | piece :: more => (c :: piece) :: more

/-- "Split input into lines" (30_encoding.md R61). -/
def sourceLines (text : List Char) : List (List Char) := splitOn isNewline text

/-- The tokens of a line, separated by one or more white space characters, after trimming
(30_encoding.md R61). -/
def tokens (line : List Char) : List (List Char) := (splitOn isSpace line).filter fun t => t ≠ []

/-- Empty after trimming, or `#` is the first character that is not white space (30_encoding.md R62). -/
def isSkipped (line : List Char) : Bool :=
  match tokens line with
  | [] => true
  | t :: _ => t.head? == some '#'

/-! ## The operand token -/

/-- The value of a digit `0` to `9`. -/
def digitValue (c : Char) : Option Nat :=
  if 48 ≤ c.toNat ∧ c.toNat ≤ 57 then some (c.toNat - 48) else none

/-- The value of a sequence of digits after a value already read. -/
def digitsValue (acc : Nat) : List Char → Option Nat
  | [] => some acc
  | c :: rest =>
    match digitValue c with
    | some d => digitsValue (10 * acc + d) rest
    | none => none

/-- One or more digits. -/
def naturalToken : List Char → Option Nat
  | [] => none
  | digits => digitsValue 0 digits

/-- An optional `+` or `-`, then one or more digits; nothing else (30_encoding.md R63, D14). -/
def integerToken : List Char → Option Int
  | '+' :: digits => (naturalToken digits).map fun n : Nat => (n : Int)
  | '-' :: digits => (naturalToken digits).map fun n : Nat => -(n : Int)
  | digits => (naturalToken digits).map fun n : Nat => (n : Int)

/-! ## Assembly -/

/-- The operand of a line of exactly two tokens whose second is an integer (30_encoding.md R64). -/
def operandOfTokens : List (List Char) → Option Int
  | [_, operand] => integerToken operand
  | _ => none

/-- The first token, which is the mnemonic. -/
def mnemonicOfTokens (ts : List (List Char)) : List Char := ts.headD []

/-- One line that is neither blank nor a comment (30_encoding.md R61, R63, R64). A line with both defects
reports either (U9; log 9). The operand stays unreduced until it is encoded (R63). -/
def assembleLine (line : List Char) : Except AsmError RawInstr :=
  match mnemonicToOpcode (mnemonicOfTokens (tokens line)), operandOfTokens (tokens line) with
  | .ok opcode, some operand => .ok { opcode := opcode.toNat, operand := operand }
  | .ok _, none => .error .malformedLine
  | .error e, some _ => .error e
  | .error e, none => .error (if Config.twoDefectsAreSyntaxError line then .malformedLine else e)

/-- The lines in source order, skipped ones left out; the first error aborts (30_encoding.md R61, R64). -/
def assembleLines : List (List Char) → Except AsmError (List RawInstr)
  | [] => .ok []
  | line :: rest =>
    if isSkipped line then assembleLines rest
    else
      match assembleLine line with
      | .error e => .error e
      | .ok r => (assembleLines rest).map fun rs => r :: rs

/-- `assemble`: source text to instruction sequence (30_encoding.md R61 to R65). -/
def assemble (text : List Char) : Except AsmError (List RawInstr) := assembleLines (sourceLines text)

/-- `emit_binary`: each instruction's four bytes, in order, and nothing else (30_encoding.md R66). -/
def emitBinary (rs : List RawInstr) : List Byte := rs.flatMap fun r => (encodeRaw r).bytes

/-- A record of the diagnostic log (30_encoding.md R67). -/
structure LogRecord where
  mnemonic : List Char
  operand : Int
deriving DecidableEq, Repr

/-- `emit_log`: the resolved mnemonic and the raw operand of each instruction, in order
(30_encoding.md R67). DESIGN CHOICE (log 17): for a pair whose opcode is outside `[0, 15]`, of which the spec says
nothing here, the mnemonic is that of the opcode's low four bits. `assemble` makes no such pair. -/
def emitLog (rs : List RawInstr) : List LogRecord :=
  rs.map fun r => { mnemonic := opcodeToMnemonic (maskRaw r).opcode, operand := r.operand }

end Sys2Proof.Machine
end

