-- ==== Sys2Proof/Machine/Blocks.lean ====
section
/-! DEFINITION. The machine as the four blocks of 00_scope.md R2, joined by the interfaces of 10_state.md R23.
A second design of the step; `step` is the model, and the two are stated to agree. -/

namespace Sys2Proof.Machine

/-- Into the data memory datapath (10_state.md R23). -/
structure DatapathIn where
  index : Operand
  wdata : Int
  we : Bool
  re : Bool
deriving DecidableEq, Repr

/-- Out of the data memory datapath; `rdata` is valid when `re` is set and `oob` is not, and what it carries
otherwise is a DESIGN CHOICE (log 16). -/
structure DatapathOut where
  rdata : Int
  oob : Bool
  mem : Memory
deriving DecidableEq, Repr

/-- Out of the accumulator ALU (10_state.md R23). -/
structure AluOut where
  accNext : Int
  accWe : Bool
  wdata : Int
  unknown : Bool
deriving DecidableEq, Repr

/-- `we`: 1 for `st`, 0 otherwise. -/
def writeEnable (opcode : Opcode) : Bool := opcode == 11#4

/-- `re`: 1 for `ldr` and `eq`, 0 otherwise. -/
def readEnable (opcode : Opcode) : Bool := opcode == 12#4 || opcode == 7#4

/-- The data memory datapath. DESIGN CHOICE (log 16): `rdata` carries what the index reads as even where
10_state.md R23 calls it not valid; the ALU uses it for `ldr` and `eq` only. -/
def datapath (memCells : Nat) (mem : Memory) (d : DatapathIn) : DatapathOut :=
  let outside := decide (memCells ≤ d.index.toNat)
  { rdata := mem.read d.index.toNat
    oob := (d.re || d.we) && outside
    mem := if d.we && !outside then mem.write d.index.toNat d.wdata else mem }

/-- The accumulator ALU. DESIGN CHOICE (log 16): where `accWe` is 0 (`st` and the reserved opcodes) 10_state.md R23
gives `accNext` no value, and this one carries the equality result, which `blockStep` never uses. -/
def alu (cellBits : Nat) (opcode : Opcode) (operand : Operand) (rdata acc : Int) : AluOut :=
  { accNext :=
      if opcode = 2#4 then (operand.setWidth cellBits).toInt
      else if opcode = 12#4 then rdata
      else if acc = rdata then 1 else 0
    accWe := opcode == 2#4 || opcode == 12#4 || opcode == 7#4
    wdata := acc
    unknown := !(opcode == 2#4 || opcode == 7#4 || opcode == 11#4 || opcode == 12#4) }

/-- The control sequencer's next `FAULT`, from the `oob` and `unknown` lines. -/
def faultLine (f : Fields) (pc : Nat) (unknown oob : Bool) : Option FaultRecord :=
  if unknown then some { cause := .unknownInstruction, info := f.opcode.setWidth 28, fpc := pc }
  else if oob then some { cause := .indexFault, info := f.operand, fpc := pc }
  else none

/-- One step of the four blocks joined, from a state in which a step is enabled. -/
def blockStep (s : State) : State :=
  let f := decodeFields (fetch s.prog s.pc)
  let d := datapath s.cfg.memCells s.mem
    { index := f.operand, wdata := s.acc, we := writeEnable f.opcode, re := readEnable f.opcode }
  let a := alu s.cfg.cellBits f.opcode f.operand d.rdata s.acc
  match faultLine f s.pc a.unknown d.oob with
  | some r => { s with fault := some r }
  | none => { s with acc := if a.accWe then a.accNext else s.acc, mem := d.mem, pc := s.pc + 1 }

end Sys2Proof.Machine
end

