-- ==== Sys2Proof/Machine/Run.lean ====
section
/-! DEFINITION. A run: steps while one is enabled, and the fold the document describes (40_fetch_decode.md R79). -/

namespace Sys2Proof.Machine

/-- No step was taken yet and no fault raised: where a run starts (40_fetch_decode.md R79). -/
abbrev State.beforeRun (s : State) : Prop := s.pc = 0 ∧ s.fault = none

/-- At most `k` steps, fewer where no step is enabled (40_fetch_decode.md R76). -/
def runSteps : Nat → State → State
  | 0, s => s
  | k + 1, s =>
    match step s with
    | .next t => runSteps k t
    | .fault _ => s
    | .refused _ => s

/-- The end of the run from `s`: no run takes more than `N` steps (40_fetch_decode.md R79). -/
def finalState (s : State) : State := runSteps (instrCount s.prog) s

/-- One instruction of the fold: it transforms the state, and once a fault was raised nothing does. -/
def foldInstr (s : State) (d : Except DecodeError Instr) : State :=
  if s.fault = none then
    match dispatch d s with
    | .next t => t
    | .fault _ => s
    | .refused _ => s
  else s

/-- "A linear fold over the decoded instruction sequence" (40_fetch_decode.md R79). -/
def foldProgram (s : State) : State := (decodeStream s.prog).foldl foldInstr s

end Sys2Proof.Machine
end

