-- ==== Sys2Proof/Machine/Launch.lean ====
section
/-! DEFINITION. What the host does before the run and after it (70_reset_and_hazards.md). The phase of a launch is
no state of the machine (10_state.md R10): it stands in `Session`, around the machine (log 6). -/

namespace Sys2Proof.Machine

/-! ## A machine and the phase of its launch -/

/-- A machine between reset and the checks of event 5 (70_reset_and_hazards.md R122, events 2 to 4). -/
structure Preparation where
  /-- The reset state, with the stream and the cells the host has written since. -/
  state : State
  /-- Whether the host gave the stream of this launch (event 3). -/
  loaded : Bool
deriving DecidableEq, Repr

/-- Where one machine stands in the fixed order of events of 70_reset_and_hazards.md R122. -/
inductive Session where
  /-- After event 2 and before event 5: the host loads and pre-seeds, and nothing runs. -/
  | preparing (p : Preparation)
  /-- After event 5: the machine steps while RUNNING, and then the host reads. -/
  | launched (s : State)
deriving DecidableEq, Repr

/-- The state of a session's machine. -/
def Session.state : Session → State
  | .preparing p => p.state
  | .launched s => s

/-- What can happen to a machine (70_reset_and_hazards.md R122, R130). -/
inductive HostEvent where
  | reset
  | load (prog : List Byte)
  | seed (i : Nat) (v : Int)
  | boot
  | step
deriving DecidableEq, Repr

/-! ## Before the run -/

/-- The reset input on a machine in any state (70_reset_and_hazards.md R121): a new launch starts from event 2
of R122, with a stream still to be given. -/
def prepareAgain (s : State) : Preparation := { state := s.applyReset, loaded := false }

/-- A machine made with the given parameters, and its reset: events 1 and 2 (70_reset_and_hazards.md R121, R122). -/
def construct (cfg : Config) : Preparation := prepareAgain { State.reset with cfg := cfg }

/-- Event 3: the host gives the whole stream, once (70_reset_and_hazards.md R123; log 18). -/
def loadProgram (prog : List Byte) (p : Preparation) : Host.Outcome Preparation Fault Refusal :=
  if p.loaded then .refused .alreadyLoaded
  else .next { state := { p.state with prog := prog }, loaded := true }

/-- Event 4: the host writes one cell (70_reset_and_hazards.md R124). -/
def preSeed (i : Nat) (v : Int) (p : Preparation) : Host.Outcome Preparation Fault Refusal :=
  if p.state.cfg.memCells ≤ i then .refused .seedIndexOutOfRange
  else if ¬ inCellDomain p.state.cfg.cellBits v then .refused .seedValueOutOfRange
  else .next { p with state := p.state.setMem (p.state.mem.write i v) }

/-- Pre-seeding of several cells, in order. -/
def preSeedAll : List (Nat × Int) → Preparation → Host.Outcome Preparation Fault Refusal
  | [], p => .next p
  | (i, v) :: rest, p =>
    match preSeed i v p with
    | .next q => preSeedAll rest q
    | .fault r => .fault r
    | .refused r => .refused r

/-- Event 5, the checks between loading and the first step (70_reset_and_hazards.md R122): a stream of more than
`PROG_MAX` instructions is refused (40_fetch_decode.md R82), and in strict mode leftover bytes raise
`MalformedInput` with `fpc = N` (R70, 60_exceptions.md R101; log 7 for the order of the two, log 12 for the
parameters). -/
def boot (p : Preparation) : Host.Outcome State Fault Refusal :=
  if ¬ p.loaded then .refused .notLoaded
  else if ¬ p.state.cfg.wf then .refused .badParameters
  else if p.state.cfg.progMax < instrCount p.state.prog then .refused .programTooLong
  else if p.state.cfg.strictLength = true ∧ leftover p.state.prog ≠ 0 then
    .next (p.state.raiseAt (.malformedInput (leftover p.state.prog)) (instrCount p.state.prog))
  else .next p.state

/-- Events 1 to 5 of one launch (70_reset_and_hazards.md R122): parameters, reset, stream, seeds, checks. -/
def launch (cfg : Config) (prog : List Byte) (seeds : List (Nat × Int)) :
    Host.Outcome State Fault Refusal :=
  match loadProgram prog (construct cfg) with
  | .next p =>
    match preSeedAll seeds p with
    | .next q => boot q
    | .fault r => .fault r
    | .refused r => .refused r
  | .fault r => .fault r
  | .refused r => .refused r

/-! ## The order of events -/

/-- An outcome with its next state put into a session. -/
def inSession {α : Type} (f : α → Session) :
    Host.Outcome α Fault Refusal → Host.Outcome Session Fault Refusal
  | .next a => .next (f a)
  | .fault r => .fault r
  | .refused r => .refused r

/-- One event of a session, which keeps the order of 70_reset_and_hazards.md R122: reset at any time (R130), the
stream, seeds and checks only before the run (R125, R129), steps only after the checks. -/
def hostEvent (e : HostEvent) : Session → Host.Outcome Session Fault Refusal
  | .preparing p =>
    match e with
    | .reset => .next (.preparing (prepareAgain p.state))
    | .load prog => inSession .preparing (loadProgram prog p)
    | .seed i v => inSession .preparing (preSeed i v p)
    | .boot => inSession .launched (boot p)
    | .step => .refused .notBooted
  | .launched s =>
    match e with
    | .reset => .next (.preparing (prepareAgain s))
    | .load _ => .refused .notBeforeRun
    | .seed _ _ => .refused .notBeforeRun
    | .boot => .refused .notBeforeRun
    | .step => inSession .launched (step s)

/-- Several events, in order, up to the first that the machine or the model turns away. -/
def hostEvents : List HostEvent → Session → Host.Outcome Session Fault Refusal
  | [], m => .next m
  | e :: rest, m =>
    match hostEvent e m with
    | .next n => hostEvents rest n
    | .fault r => .fault r
    | .refused r => .refused r

/-! ## After the run -/

/-- What the host reads when the run is over (70_reset_and_hazards.md R127, 60_exceptions.md R117). -/
inductive RunResult where
  | good (acc : Int)
  | failed (record : FaultRecord)
deriving DecidableEq, Repr

/-- `ACC` in `DONE`, `FAULT` in `FAULTED`; during the run the host reads nothing (70_reset_and_hazards.md
R125, R130). -/
def hostResult (s : State) : Except Refusal RunResult :=
  match s.fault with
  | some r => .ok (.failed r)
  | none => if s.pc < instrCount s.prog then .error .hostDuringRun else .ok (.good s.acc)

/-- The cells of a window whose bounds are clamped to the memory's length (70_reset_and_hazards.md R128). -/
def window (memCells : Nat) (mem : Memory) (start stop : Nat) : List Int :=
  (List.range' (min start memCells) (min stop memCells - min start memCells)).map fun i => mem.read i

/-- `export_memory(start, end)`: in `DONE` only, for bounds that are not negative
(70_reset_and_hazards.md R128). -/
def exportMemory (s : State) (start stop : Int) : Except Refusal (List Int) :=
  if ¬ s.isDone then .error .exportNotDone
  else if start < 0 ∨ stop < 0 then .error .exportNegativeBound
  else .ok (window s.cfg.memCells s.mem start.toNat stop.toNat)

/-- What a test harness inspects after a fault: `ACC` and every cell, in index order (60_exceptions.md R117). -/
structure Inspection where
  acc : Int
  cells : List Int
deriving DecidableEq, Repr

/-- The harness's inspection of a `FAULTED` machine (60_exceptions.md R117, 70_reset_and_hazards.md R130). It is
not the result of the program, and it changes nothing. -/
def inspect (s : State) : Except Refusal Inspection :=
  if s.isFaulted then .ok { acc := s.acc, cells := window s.cfg.memCells s.mem 0 s.cfg.memCells }
  else .error .inspectNotFaulted

/-- A reading by the host: only of a launched machine (70_reset_and_hazards.md R122, event 7). -/
def hostRead {α : Type} (f : State → Except Refusal α) : Session → Except Refusal α
  | .preparing _ => .error .notBooted
  | .launched s => f s

end Sys2Proof.Machine
end

