-- ==== Sys2Proof/Safety.lean ====
section
/-! DEFINITION. What a good run is, which programs have one, and the invariants of the machine. -/

namespace Sys2Proof.Machine

/-! ## Which instructions fault -/

/-- The fault an element of the decoded stream raises when it is executed, if any. It depends on the element
and on `MEM_CELLS` alone (60_exceptions.md R100). -/
def faultOf (memCells : Nat) : Except DecodeError Instr → Option Raise
  | .error e => some (raiseOfDecodeError e)
  | .ok (.ldc _) => none
  | .ok (.eq m) => if memCells ≤ m.toNat then some (.indexFault m) else none
  | .ok (.st m) => if memCells ≤ m.toNat then some (.indexFault m) else none
  | .ok (.ldr m) => if memCells ≤ m.toNat then some (.indexFault m) else none

/-- The first position at or after `p` whose element faults, with its fault. -/
def firstFault (memCells : Nat) (p : Nat) : List (Except DecodeError Instr) → Option (Nat × Raise)
  | [] => none
  | d :: rest =>
    match faultOf memCells d with
    | some r => some (p, r)
    | none => firstFault memCells (p + 1) rest

/-- Software's whole obligation: every index below `MEM_CELLS`, only the four defined opcodes
(70_reset_and_hazards.md R131). -/
abbrev SafeProgram (cfg : Config) (prog : List Byte) : Prop :=
  ∀ d ∈ decodeStream prog, faultOf cfg.memCells d = none

/-- A good run from `s` ends `DONE` (40_fetch_decode.md R76). -/
abbrev GoodRun (s : State) : Prop := (finalState s).isDone

/-! ## What a step leaves alone -/

/-- The program stream and the parameters are the same (10_state.md R18, R21). -/
abbrev SameLaunch (s t : State) : Prop := t.cfg = s.cfg ∧ t.prog = s.prog

/-- Every cell reads as before. -/
abbrev SameCells (s t : State) : Prop := ∀ i, t.mem.read i = s.mem.read i

/-- Every cell but the one at `i` reads as before. -/
abbrev SameCellsExcept (i : Nat) (s t : State) : Prop := ∀ k, k ≠ i → t.mem.read k = s.mem.read k

/-! ## The invariant of the machine -/

/-- What `FAULT` may hold (10_state.md R14, 60_exceptions.md R100 to R103). -/
def FaultLegal (s : State) : Prop :=
  match s.fault with
  | none => s.cfg.strictLength = true → leftover s.prog = 0
  | some r =>
    match r.cause with
    | .malformedInput =>
      s.cfg.strictLength = true ∧ leftover s.prog ≠ 0 ∧ r.info = BitVec.ofNat 28 (leftover s.prog) ∧
        r.fpc = instrCount s.prog ∧ s.pc = 0
    | .unknownInstruction =>
      r.fpc = s.pc ∧ s.pc < instrCount s.prog ∧
        r.info = (decodeFields (fetch s.prog s.pc)).opcode.setWidth 28 ∧
        (decodeFields (fetch s.prog s.pc)).opcode ∉ [2#4, 7#4, 11#4, 12#4]
    | .indexFault =>
      r.fpc = s.pc ∧ s.pc < instrCount s.prog ∧
        r.info = (decodeFields (fetch s.prog s.pc)).operand ∧ s.cfg.memCells ≤ r.info.toNat ∧
        (decodeFields (fetch s.prog s.pc)).opcode ∈ [7#4, 11#4, 12#4]

/-- The machine's invariant: a launched machine satisfies it and every step keeps it. -/
structure State.Inv (s : State) : Prop where
  /-- The parameters are admitted (00_scope.md R6). -/
  config : s.cfg.wf
  /-- The stream is no longer than `PROG_MAX` (40_fetch_decode.md R82). -/
  length : instrCount s.prog ≤ s.cfg.progMax
  /-- `ACC` is a `CELL_BITS`-bit signed integer (10_state.md R11). -/
  acc : inCellDomain s.cfg.cellBits s.acc
  /-- `MEM` is in canonical form. -/
  mem : s.mem.wf
  /-- Every listed cell exists and holds a `CELL_BITS`-bit signed integer (10_state.md R12). -/
  cells : ∀ c ∈ s.mem, c.1 < s.cfg.memCells ∧ inCellDomain s.cfg.cellBits c.2
  /-- `PC` is in `[0, N]` (10_state.md R13). -/
  pc : s.pc ≤ instrCount s.prog
  /-- `FAULT` holds a record the machine can raise. -/
  fault : FaultLegal s

/-- What holds of a machine between reset and the checks of event 5: the reset values, but for the cells the host
pre-seeded inside the memory and the cell domain (70_reset_and_hazards.md R120, R124). -/
structure Preparation.Inv (p : Preparation) : Prop where
  acc : p.state.acc = 0
  pc : p.state.pc = 0
  fault : p.state.fault = none
  mem : p.state.mem.wf
  cells : ∀ c ∈ p.state.mem, c.1 < p.state.cfg.memCells ∧ inCellDomain p.state.cfg.cellBits c.2

/-- The invariant of a session: a launched machine meets the machine's invariant, one in preparation has its reset
values and its seeds. -/
def Session.Inv : Session → Prop
  | .preparing p => p.Inv
  | .launched s => s.Inv

/-! ## The values of a run -/

/-- A value that a run can hold at `s` (43_equality.md R97): 0, 1, a pre-seeded value, or the operand of an `ldc`
at a position already executed. -/
def ValueOf (seeds : List Int) (s : State) (v : Int) : Prop :=
  v = 0 ∨ v = 1 ∨ v ∈ seeds ∨
    ∃ (p : Nat) (m : Operand), p < s.pc ∧ decode (fetch s.prog p) = .ok (.ldc m) ∧ v = m.toNat

/-- `ACC` and every cell hold such a value. -/
structure State.ValuesFrom (seeds : List Int) (s : State) : Prop where
  acc : ValueOf seeds s s.acc
  cells : ∀ i, ValueOf seeds s (s.mem.read i)

end Sys2Proof.Machine
end

