-- ==== Sys2Proof/Certificates/Slice0/Obligations.lean ====
section
/-! DEFINITION. The statements about the machine that are to be proved. Each docstring names the rule it comes
from, or says that the statement rests on a choice and names the log entry or the spec's sentence. -/

open Sys2Proof Sys2Proof.Machine

/-! ## Encoding -/

/-- The four bit-exact encodings of the document (95_test_vectors.md S2) decode to their instructions; and by table D
the bytes 00 00 00 02 have opcode 0, which this model's `decode` answers with an error that names it: that it is an
error of `decode` is the model's choice (DESIGN CHOICE, log 13), since the decoder block itself rejects nothing. -/
def Obligations.WrittenOutWordsDecode : Prop :=
  decode ⟨0xD2#8, 0x01#8, 0x00#8, 0x00#8⟩ = .ok (.ldc 29#28) ∧
  decode ⟨0xAC#8, 0x0E#8, 0x00#8, 0x00#8⟩ = .ok (.ldr 234#28) ∧
  decode ⟨0x9B#8, 0x16#8, 0x00#8, 0x00#8⟩ = .ok (.st 361#28) ∧
  decode ⟨0x27#8, 0x27#8, 0x00#8, 0x00#8⟩ = .ok (.eq 626#28) ∧
  decode ⟨0x00#8, 0x00#8, 0x00#8, 0x02#8⟩ = .error (.unknownOpcode 0#4)

/-- R53: the decoder is the three formulas on the little-endian word. -/
def Obligations.DecoderFollowsItsFormulas : Prop :=
  ∀ c : Chunk,
    let W : Word := c.b0.setWidth 32 ||| (c.b1.setWidth 32 <<< 8) ||| (c.b2.setWidth 32 <<< 16) |||
      (c.b3.setWidth 32 <<< 24)
    wordOfChunk c = W ∧
    (decodeFields c).opcode.setWidth 32 = W &&& 0xF#32 ∧
    (decodeFields c).operand.setWidth 32 = (W >>> 4) &&& 0x0FFFFFFF#32

/-- The byte view of 30_encoding.md section 1 (the spec marks it "derived: from rule R51"). -/
def Obligations.FieldsSitInTheirBytes : Prop :=
  ∀ c : Chunk,
    (decodeFields c).opcode = c.b0.extractLsb' 0 4 ∧
    (decodeFields c).operand = c.b3 ++ c.b2 ++ c.b1 ++ c.b0.extractLsb' 4 4

/-- R58: the operand is `W[31:4]` in place, unsigned; as a constant it is zero-extended, so never negative, and as an
index it is used as it is. -/
def Obligations.OperandIsTakenInPlaceUnsigned : Prop :=
  (∀ (c : Chunk) (k : Nat), k < 28 →
    (decodeFields c).operand.getLsbD k = (wordOfChunk c).getLsbD (k + 4)) ∧
  (∀ (w : Nat) (m : Operand), 29 ≤ w →
    BitVec.ofInt w (constantOperand w m) = m.setWidth w ∧ 0 ≤ constantOperand w m ∧
      constantOperand w m < 2 ^ 28) ∧
  (∀ m : Operand, indexOperand m = m.toNat)

/-- 30_encoding.md section 2: four bytes always give a pair, fewer are `MalformedInput`. That more than four bytes give
the pair of the first four, with the rest, is the model's choice (DESIGN CHOICE, log 19). The third and the
fourth clause state the model's choice of log 13 (DESIGN CHOICE), not the spec's decoder, which rejects nothing:
`decode`, the decoder block followed by the table lookup, answers an instruction exactly on the four opcodes and
otherwise an error that names the opcode. -/
def Obligations.DecoderFailsOnlyOnShortInput : Prop :=
  (∀ b0 b1 b2 b3 rest, decodeBytes (b0 :: b1 :: b2 :: b3 :: rest) = .ok (decodeFields ⟨b0, b1, b2, b3⟩, rest)) ∧
  (∀ bytes : List Byte, bytes.length < 4 → decodeBytes bytes = .error (.malformedInput bytes.length)) ∧
  (∀ c : Chunk, (∃ i, decode c = .ok i) ↔ (decodeFields c).opcode ∈ [2#4, 7#4, 11#4, 12#4]) ∧
  (∀ c : Chunk, (decodeFields c).opcode ∉ [2#4, 7#4, 11#4, 12#4] →
    decode c = .error (.unknownOpcode (decodeFields c).opcode))

/-- The round trips of 30_encoding.md section 3.1 on pairs, on bytes and on arbitrary integers (the spec marks
the second and the third "derived"; the residue of a negative integer is D14). -/
def Obligations.PairsAndBytesRoundTrip : Prop :=
  (∀ f : Fields, decodeFields (encodeFields f) = f) ∧
  (∀ c : Chunk, encodeFields (decodeFields c) = c) ∧
  (∀ r : RawInstr,
    ((decodeFields (encodeRaw r)).opcode.toNat : Int) = r.opcode % 16 ∧
    ((decodeFields (encodeRaw r)).operand.toNat : Int) = r.operand % 2 ^ 28)

/-- Decode and encode agree on every instruction with every operand: an instruction's bytes, and no other four
bytes, decode to it. -/
def Obligations.DecodeEncodeAgree : Prop :=
  ∀ (i : Instr) (c : Chunk), i.wf → (decode c = .ok i ↔ c = encode i)

/-- The encoder's formula (30_encoding.md section 3, with the residue of D14 for negative integers). -/
def Obligations.EncoderMasksAndPacks : Prop :=
  ∀ r : RawInstr,
    ((wordOfChunk (encodeRaw r)).toNat : Int) = r.opcode % 16 + 16 * (r.operand % 2 ^ 28) ∧
    (wordOfChunk (encodeRaw r)).extractLsb' 0 8 = (encodeRaw r).b0 ∧
    (wordOfChunk (encodeRaw r)).extractLsb' 8 8 = (encodeRaw r).b1 ∧
    (wordOfChunk (encodeRaw r)).extractLsb' 16 8 = (encodeRaw r).b2 ∧
    (wordOfChunk (encodeRaw r)).extractLsb' 24 8 = (encodeRaw r).b3

/-! ## One step -/

/-- A step runs the decoded instruction: where a step is enabled and the four bytes at `PC` decode to a well-formed
instruction, `step` is `exec` of it, with nothing added; the meaning itself advances `PC`. -/
def Obligations.StepRunsDecodedInstruction : Prop :=
  ∀ (s : State) (i : Instr), s.isRunning → decode (fetch s.prog s.pc) = .ok i → i.wf → step s = exec i s

/-- R71: a step is enabled exactly in RUNNING; it executes the instruction at `PC` completely; a state that is not
RUNNING is never left by stepping. -/
def Obligations.StepEnabledExactlyWhenRunning : Prop :=
  (∀ s : State, (∃ t, step s = .next t) ↔ s.isRunning) ∧
  (∀ s : State, s.isRunning → step s = dispatch (decode (fetch s.prog s.pc)) s) ∧
  (∀ (s : State) (k : Nat), ¬ s.isRunning → runSteps k s = s)

/-- R72: an enabled step's fetch reads the four bytes of the chunk at `PC`, all inside the stream. -/
def Obligations.FetchReadsTheChunkAtPc : Prop :=
  ∀ s : State, s.isRunning →
    4 * s.pc + 3 < s.prog.length ∧
    s.prog[4 * s.pc]? = some (fetch s.prog s.pc).b0 ∧
    s.prog[4 * s.pc + 1]? = some (fetch s.prog s.pc).b1 ∧
    s.prog[4 * s.pc + 2]? = some (fetch s.prog s.pc).b2 ∧
    s.prog[4 * s.pc + 3]? = some (fetch s.prog s.pc).b3

/-- 40_fetch_decode.md section 1: the stream is cut into `N` chunks, and the one at position `p` is what the fetch at `p`
reads; the leftover bytes give none. -/
def Obligations.StreamIsItsChunks : Prop :=
  ∀ prog : List Byte,
    (decodeStream prog).length = instrCount prog ∧
    ∀ p, p < instrCount prog → (decodeStream prog)[p]? = some (decode (fetch prog p))

/-- R74: the rule of an instruction is selected by the opcode alone. -/
def Obligations.DispatchSelectsByOpcodeAlone : Prop :=
  ∀ (c : Chunk) (s : State),
    ((decodeFields c).opcode = 2#4 → dispatch (decode c) s = execLdc (decodeFields c).operand s) ∧
    ((decodeFields c).opcode = 12#4 → dispatch (decode c) s = execLdr (decodeFields c).operand s) ∧
    ((decodeFields c).opcode = 11#4 → dispatch (decode c) s = execSt (decodeFields c).operand s) ∧
    ((decodeFields c).opcode = 7#4 → dispatch (decode c) s = execEq (decodeFields c).operand s) ∧
    ((decodeFields c).opcode ∉ [2#4, 7#4, 11#4, 12#4] →
      dispatch (decode c) s = .next (s.raise (.unknownInstruction (decodeFields c).opcode)))

/-- R75: a step that completes adds 1 to `PC`; a step that faults leaves it. There is no third way. -/
def Obligations.PcAdvancesByOneOrStays : Prop :=
  ∀ s t : State, step s = .next t →
    (t.fault = none ∧ t.pc = s.pc + 1) ∨ (t.fault ≠ none ∧ t.pc = s.pc)

/-- Every step leaves the stream and the parameters alone, so a store never reaches fetch (20_memory.md section 6,
10_state.md section 7). -/
def Obligations.StepNeverChangesWhatIsFetched : Prop :=
  ∀ s t : State, step s = .next t →
    SameLaunch s t ∧ (∀ p, fetch t.prog p = fetch s.prog p) ∧ instrCount t.prog = instrCount s.prog

/-- 10_state.md section 2 and 20_memory.md section 4: only `st` changes a cell, and only the cell its operand names;
only `ldc`, `ldr` and `eq` change `ACC`. -/
def Obligations.OnlyStoreWritesCellsOnlyLoadsAndEqWriteAcc : Prop :=
  ∀ s t : State, step s = .next t →
    (∀ k, t.mem.read k ≠ s.mem.read k →
      ∃ m, decode (fetch s.prog s.pc) = .ok (.st m) ∧ indexOperand m = k) ∧
    (t.acc ≠ s.acc →
      ∃ m, decode (fetch s.prog s.pc) = .ok (.ldc m) ∨ decode (fetch s.prog s.pc) = .ok (.ldr m) ∨
        decode (fetch s.prog s.pc) = .ok (.eq m))

/-- 10_state.md section 7: exactly one of DONE, RUNNING and FAULTED holds, in every state with `PC` in `[0, N]`. -/
def Obligations.ExactlyOneRunPredicateHolds : Prop :=
  ∀ s : State, s.Inv →
    (s.isFaulted ∧ ¬ s.isDone ∧ ¬ s.isRunning) ∨ (¬ s.isFaulted ∧ s.isDone ∧ ¬ s.isRunning) ∨
      (¬ s.isFaulted ∧ ¬ s.isDone ∧ s.isRunning)

/-! ## The four instructions -/

/-- R85: `ldc m` always completes, with `ACC` the zero-extended operand and nothing else changed but `PC`; its word;
the constants that cannot be loaded. -/
def Obligations.LdcLoadsItsConstant : Prop :=
  (∀ (m : Operand) (s : State), 29 ≤ s.cfg.cellBits →
    ∃ t, exec (.ldc m) s = .next t ∧ t.acc = m.toNat ∧ t.pc = s.pc + 1 ∧ t.fault = s.fault ∧
      SameLaunch s t ∧ SameCells s t) ∧
  (∀ m : Operand, wordOfChunk (encode (.ldc m)) = 2#32 ||| (m.setWidth 32 <<< 4)) ∧
  encodeRaw ⟨2, -1⟩ = encode (.ldc 268435455#28) ∧ encodeRaw ⟨2, 268435456⟩ = encode (.ldc 0#28)

/-- R86: `ldr m` copies the cell into `ACC`; an index outside the memory takes the fault and changes only `FAULT`;
its word. -/
def Obligations.LdrLoadsTheCell : Prop :=
  (∀ (m : Operand) (s : State), indexOperand m < s.cfg.memCells →
    ∃ t, exec (.ldr m) s = .next t ∧ t.acc = s.mem.read (indexOperand m) ∧ t.pc = s.pc + 1 ∧
      t.fault = s.fault ∧ SameLaunch s t ∧ SameCells s t) ∧
  (∀ (m : Operand) (s : State), s.cfg.memCells ≤ indexOperand m →
    ∃ t, exec (.ldr m) s = .next t ∧ t.fault = some { cause := .indexFault, info := m, fpc := s.pc } ∧
      causeCode t.fault = 3#2 ∧ t.acc = s.acc ∧ t.pc = s.pc ∧ SameLaunch s t ∧ SameCells s t) ∧
  (∀ m : Operand, wordOfChunk (encode (.ldr m)) = 12#32 ||| (m.setWidth 32 <<< 4))

/-- R90: `st m` stores `ACC` in the cell its operand names and leaves every other cell and `ACC` alone; an index
outside the memory takes the fault and stores nothing; its word. The memory is in canonical form, as every reachable
memory is (`StepKeepsTheInvariant`). -/
def Obligations.StStoresTheAccumulator : Prop :=
  (∀ (m : Operand) (s : State), s.mem.wf → indexOperand m < s.cfg.memCells →
    ∃ t, exec (.st m) s = .next t ∧ t.mem.read (indexOperand m) = s.acc ∧
      SameCellsExcept (indexOperand m) s t ∧ t.acc = s.acc ∧ t.pc = s.pc + 1 ∧ t.fault = s.fault ∧
      SameLaunch s t) ∧
  (∀ (m : Operand) (s : State), s.cfg.memCells ≤ indexOperand m →
    ∃ t, exec (.st m) s = .next t ∧ t.fault = some { cause := .indexFault, info := m, fpc := s.pc } ∧
      causeCode t.fault = 3#2 ∧ t.acc = s.acc ∧ t.pc = s.pc ∧ SameLaunch s t ∧ SameCells s t) ∧
  (∀ m : Operand, wordOfChunk (encode (.st m)) = 11#32 ||| (m.setWidth 32 <<< 4))

/-- R95: `eq m` writes 1 or 0 into `ACC` from the old `ACC` and the cell; an index outside the memory takes the fault
and leaves `ACC` alone; its word. -/
def Obligations.EqComparesWithTheCell : Prop :=
  (∀ (m : Operand) (s : State), indexOperand m < s.cfg.memCells →
    ∃ t, exec (.eq m) s = .next t ∧
      (s.acc = s.mem.read (indexOperand m) → t.acc = 1) ∧
      (s.acc ≠ s.mem.read (indexOperand m) → t.acc = 0) ∧ t.pc = s.pc + 1 ∧ t.fault = s.fault ∧
      SameLaunch s t ∧ SameCells s t) ∧
  (∀ (m : Operand) (s : State), s.cfg.memCells ≤ indexOperand m →
    ∃ t, exec (.eq m) s = .next t ∧ t.fault = some { cause := .indexFault, info := m, fpc := s.pc } ∧
      causeCode t.fault = 3#2 ∧ t.acc = s.acc ∧ t.pc = s.pc ∧ SameLaunch s t ∧ SameCells s t) ∧
  (∀ m : Operand, wordOfChunk (encode (.eq m)) = 7#32 ||| (m.setWidth 32 <<< 4))

/-- 43_equality.md section "Integer arithmetic laws", law 2: in the cell domain, equality of the integers is equality
of all `CELL_BITS` bits (D1, D15; log 3). -/
def Obligations.EqualityIsEqualityOfAllBits : Prop :=
  ∀ (w : Nat) (a b : Int), 29 ≤ w → inCellDomain w a → inCellDomain w b →
    (BitVec.ofInt w a = BitVec.ofInt w b ↔ equalityResult a b = 1) ∧
    (BitVec.ofInt w a ≠ BitVec.ofInt w b ↔ equalityResult a b = 0)

/-! ## Memory -/

/-- R38: the two memory primitives check the index first, then read or write exactly one cell. -/
def Obligations.MemoryPrimitivesCheckThenAccess : Prop :=
  (∀ (s : State) (m : Operand) (v : Int), s.cfg.memCells ≤ indexOperand m →
    memRead s m = .error (.indexFault m) ∧ memWrite s m v = .error (.indexFault m)) ∧
  (∀ (s : State) (m : Operand) (v : Int), s.mem.wf → indexOperand m < s.cfg.memCells →
    memRead s m = .ok (s.mem.read (indexOperand m)) ∧
    ∃ t, memWrite s m v = .ok t ∧ t.mem.read (indexOperand m) = v ∧
      SameCellsExcept (indexOperand m) s t ∧ t.acc = s.acc ∧ t.pc = s.pc ∧ t.fault = s.fault ∧
      SameLaunch s t)

/-- R39: a cell keeps its value through every step that is not an `st` to it, and writing a value twice is writing it
once. -/
def Obligations.ReadsAndRepeatedWritesHaveNoSideEffect : Prop :=
  (∀ (s t : State) (i : Nat), step s = .next t →
    (∀ m, decode (fetch s.prog s.pc) = .ok (.st m) → indexOperand m ≠ i) → t.mem.read i = s.mem.read i) ∧
  (∀ (mem : Memory) (i : Nat) (v : Int), mem.wf → (mem.write i v).write i v = mem.write i v)

/-- Canonical memories that read alike everywhere are equal: comparing states compares memories (log 4). -/
def Obligations.CanonicalMemoriesAreEqualWhenTheyReadAlike : Prop :=
  ∀ a b : Memory, a.wf → b.wf → (∀ i, a.read i = b.read i) → a = b

/-- 20_memory.md section 6, item 1: over any number of steps with no `st` to a cell, the cell keeps its value, so a
load reads the last store or the value before the run. -/
def Obligations.CellKeepsItsValueUntilStored : Prop :=
  ∀ (k : Nat) (s : State) (i : Nat),
    (∀ p m, s.pc ≤ p → p < s.pc + k → decode (fetch s.prog p) = .ok (.st m) → indexOperand m ≠ i) →
    (runSteps k s).mem.read i = s.mem.read i

/-- 20_memory.md section 6, item 2: a store is visible to the very next instruction, to `ldr` and to `eq`. -/
def Obligations.StoreIsVisibleToTheNextInstruction : Prop :=
  ∀ (m : Operand) (s : State), s.mem.wf → indexOperand m < s.cfg.memCells →
    ∃ t u v, exec (.st m) s = .next t ∧ exec (.ldr m) t = .next u ∧ u.acc = s.acc ∧ SameCells t u ∧
      exec (.eq m) t = .next v ∧ v.acc = 1

/-! ## Faults -/

/-- R77: an opcode with no instruction raises `UnknownInstruction(opcode)` whatever the operand, changes nothing but
`FAULT`, and ends the run there; no step raises it before such an opcode is reached. -/
def Obligations.UnknownOpcodeFaultsWhenReached : Prop :=
  (∀ s : State, s.isRunning → (decodeFields (fetch s.prog s.pc)).opcode ∉ [2#4, 7#4, 11#4, 12#4] →
    ∃ t, step s = .next t ∧
      t.fault = some { cause := .unknownInstruction
                       info := (decodeFields (fetch s.prog s.pc)).opcode.setWidth 28, fpc := s.pc } ∧
      causeCode t.fault = 2#2 ∧ t.acc = s.acc ∧ t.pc = s.pc ∧ SameLaunch s t ∧ SameCells s t ∧ ∀ k, runSteps k t = t) ∧
  (∀ (s t : State) (r : FaultRecord), step s = .next t → t.fault = some r → r.cause = .unknownInstruction →
    (decodeFields (fetch s.prog s.pc)).opcode ∉ [2#4, 7#4, 11#4, 12#4])

/-- The bounds rule at the level of a step (20_memory.md section 4; the spec's own decision D3): `ldr`, `st` or `eq`
with an index outside the memory makes no access and raises `IndexFault(m)`. -/
def Obligations.IndexOutsideMemoryFaults : Prop :=
  ∀ (s : State) (m : Operand), s.isRunning → s.cfg.memCells ≤ indexOperand m →
    (decode (fetch s.prog s.pc) = .ok (.ldr m) ∨ decode (fetch s.prog s.pc) = .ok (.st m) ∨
      decode (fetch s.prog s.pc) = .ok (.eq m)) →
    step s = .next { s with fault := some { cause := .indexFault, info := m, fpc := s.pc } }

/-- Faults are precise (60_exceptions.md section 4; the spec's own decision D6): a step that faults changes `FAULT` and
nothing else, records its own position, and only for a reserved opcode or an index outside the memory. -/
def Obligations.FaultChangesOnlyTheRecord : Prop :=
  ∀ (s t : State) (r : FaultRecord), step s = .next t → t.fault = some r →
    t = { s with fault := some r } ∧ r.fpc = s.pc ∧
    ((r.cause = .unknownInstruction ∧ (decodeFields (fetch s.prog s.pc)).opcode ∉ [2#4, 7#4, 11#4, 12#4] ∧
        r.info = (decodeFields (fetch s.prog s.pc)).opcode.setWidth 28) ∨
      (r.cause = .indexFault ∧ (decodeFields (fetch s.prog s.pc)).opcode ∈ [7#4, 11#4, 12#4] ∧
        s.cfg.memCells ≤ (decodeFields (fetch s.prog s.pc)).operand.toNat ∧
        r.info = (decodeFields (fetch s.prog s.pc)).operand))

/-- R108: once `FAULT` is not `NONE`, nothing but reset changes the state, and reset clears everything. -/
def Obligations.OnlyResetLeavesAFault : Prop :=
  ∀ s : State, s.isFaulted →
    (∀ t, step s ≠ .next t) ∧ (∀ k, runSteps k s = s) ∧
    s.applyReset.fault = none ∧ s.applyReset.acc = 0 ∧ s.applyReset.pc = 0 ∧
    (∀ i, s.applyReset.mem.read i = 0)

/-! ## Reset and the host -/

/-- 70_reset_and_hazards.md section 1 (`PC` and `FAULT` are the spec's own choice D7; the parameters of State.reset are
the defaults, its stream is empty by log 2): reset sets every item, keeps the stream and the parameters, and gives
State.reset from any state of the default machine with no stream. -/
def Obligations.ResetSetsEveryItem : Prop :=
  (∀ s : State, s.applyReset.acc = 0 ∧ (∀ i, s.applyReset.mem.read i = 0) ∧ s.applyReset.pc = 0 ∧
    s.applyReset.fault = none ∧ SameLaunch s s.applyReset) ∧
  (∀ s : State, s.cfg = Config.standard → s.prog = [] → s.applyReset = State.reset) ∧
  State.reset.cfg = { memCells := 1024, cellBits := 32, strictLength := false, progMax := 2 ^ 30 }

/-- The invariant holds at reset. -/
def Obligations.ResetHasTheInvariant : Prop := State.reset.Inv

/-- Every step keeps the invariant: values stay in the cell domain, the memory stays canonical and inside its bounds,
`PC` stays in `[0, N]`, and `FAULT` holds only a record the machine can raise. -/
def Obligations.StepKeepsTheInvariant : Prop :=
  ∀ s t : State, s.Inv → step s = .next t → t.Inv

/-- Every launch the host can make gives the invariant, with `PC` and `ACC` at 0 (70_reset_and_hazards.md section 2). -/
def Obligations.LaunchGivesTheInvariant : Prop :=
  ∀ (cfg : Config) (prog : List Byte) (seeds : List (Nat × Int)) (s : State),
    launch cfg prog seeds = .next s →
    s.Inv ∧ s.cfg = cfg ∧ s.prog = prog ∧ s.pc = 0 ∧ s.acc = 0

/-- Pre-seeding (70_reset_and_hazards.md section 2; the spec's own decision D10): a launch with seeds in the memory and
the cell domain succeeds, a cell holds the last seed given for it, and one that has none holds 0. -/
def Obligations.PreSeededCellsHoldTheirSeeds : Prop :=
  ∀ (cfg : Config) (prog : List Byte) (seeds : List (Nat × Int)),
    cfg.wf → instrCount prog ≤ cfg.progMax →
    (∀ c ∈ seeds, c.1 < cfg.memCells ∧ inCellDomain cfg.cellBits c.2) →
    ∃ s, launch cfg prog seeds = .next s ∧
      ∀ i, s.mem.read i = ((seeds.reverse.find? fun c => c.1 == i).map Prod.snd).getD 0

/-- The launches the model refuses, each by its name: parameters outside 00_scope.md R6 (the model's choice, log 12);
a stream longer than `PROG_MAX` (the spec's own decision D4), in strict mode with leftover bytes too, where the model
refuses first (its choice, log 7); and a seed outside the memory or outside the cell domain at any place among the
seeds, the first such seed giving the name (the spec's own decision D10). Every other launch succeeds
(`PreSeededCellsHoldTheirSeeds`). -/
def Obligations.BadLaunchesAreRefused : Prop :=
  (∀ (cfg : Config) (prog : List Byte) (seeds : List (Nat × Int)),
    (∀ c ∈ seeds, c.1 < cfg.memCells ∧ inCellDomain cfg.cellBits c.2) →
    (¬ cfg.wf → launch cfg prog seeds = .refused .badParameters) ∧
    (cfg.wf → cfg.progMax < instrCount prog → launch cfg prog seeds = .refused .programTooLong)) ∧
  (∀ (cfg : Config) (prog : List Byte) (seeds : List (Nat × Int)) (i : Nat) (v : Int) (rest : List (Nat × Int)),
    (∀ c ∈ seeds, c.1 < cfg.memCells ∧ inCellDomain cfg.cellBits c.2) →
    (cfg.memCells ≤ i → launch cfg prog (seeds ++ (i, v) :: rest) = .refused .seedIndexOutOfRange) ∧
    (i < cfg.memCells → ¬ inCellDomain cfg.cellBits v →
      launch cfg prog (seeds ++ (i, v) :: rest) = .refused .seedValueOutOfRange))

/-- 70_reset_and_hazards.md section 2: without a reset, the events of a launch come in the one order the spec fixes:
the stream once and any seeds around it, then the checks, then steps only. Anything else is turned away (that one
launch takes one stream is the model's choice, log 18). -/
def Obligations.EventsOfALaunchComeInOrder : Prop :=
  ∀ (cfg : Config) (es : List HostEvent) (m : Session),
    hostEvents es (.preparing (construct cfg)) = .next m → HostEvent.reset ∉ es →
    (∃ p, m = .preparing p ∧
      ((∀ e ∈ es, ∃ i v, e = HostEvent.seed i v) ∨
        ∃ before prog after, es = before ++ HostEvent.load prog :: after ∧
          ∀ e ∈ before ++ after, ∃ i v, e = HostEvent.seed i v)) ∨
    (∃ s before prog after k, m = .launched s ∧
      es = before ++ HostEvent.load prog :: (after ++ HostEvent.boot :: List.replicate k HostEvent.step) ∧
      ∀ e ∈ before ++ after, ∃ i v, e = HostEvent.seed i v)

/-- `launch` is the events of 70_reset_and_hazards.md section 2 in their order, and the stream and the seeds may come in
either order. -/
def Obligations.LaunchIsItsEventsInEitherOrder : Prop :=
  ∀ (cfg : Config) (prog : List Byte) (seeds : List (Nat × Int)),
    hostEvents (HostEvent.load prog :: (seeds.map (fun c => HostEvent.seed c.1 c.2) ++ [HostEvent.boot]))
        (.preparing (construct cfg)) = inSession .launched (launch cfg prog seeds) ∧
    hostEvents (seeds.map (fun c => HostEvent.seed c.1 c.2) ++ [HostEvent.load prog, HostEvent.boot])
        (.preparing (construct cfg)) = inSession .launched (launch cfg prog seeds)

/-- A machine whose run is over, DONE or FAULTED, with any program, the empty one too, is left only by reset
(70_reset_and_hazards.md sections 1 and 2; the spec's own decisions D7 and D13); and the reset event, at any time, leads
to a machine in preparation that is the reset machine: `ACC` 0, every cell 0, `PC` 0, `FAULT` `NONE`, with the stream and
the parameters as they were. That the checks refuse such a machine until the host gives the stream again is the model's
choice (DESIGN CHOICE, log 18). -/
def Obligations.OnlyResetLeavesAFinishedRun : Prop :=
  (∀ s : State, ¬ s.isRunning →
    ∀ (e : HostEvent) (n : Session), hostEvent e (.launched s) = .next n → e = HostEvent.reset) ∧
  (∀ m : Session, ∃ p, hostEvent HostEvent.reset m = .next (.preparing p) ∧ p.state = m.state.applyReset ∧
    p.state.acc = 0 ∧ (∀ i, p.state.mem.read i = 0) ∧ p.state.pc = 0 ∧ p.state.fault = none ∧
    SameLaunch m.state p.state ∧ boot p = .refused .notLoaded)

/-- Every event of a session keeps its invariant: a machine in preparation has its reset values and admitted seeds, a
launched one the machine's invariant, so a run starts only from a state whose checks were made. -/
def Obligations.EveryEventKeepsTheSessionInvariant : Prop :=
  (∀ cfg : Config, (Session.preparing (construct cfg)).Inv) ∧
  (∀ (e : HostEvent) (m n : Session), m.Inv → hostEvent e m = .next n → n.Inv)

/-- Leftover bytes (40_fetch_decode.md section 1, 60_exceptions.md section 1; the spec's own decisions D8, D10 and D17):
in strict mode they raise `MalformedInput` at boot, before any step; otherwise the launch raises nothing. In both cases
`PC` and `ACC` are 0 and the cells hold their last seed, or 0. -/
def Obligations.LeftoverBytesFaultOnlyInStrictMode : Prop :=
  ∀ (cfg : Config) (prog : List Byte) (seeds : List (Nat × Int)), cfg.wf → instrCount prog ≤ cfg.progMax →
    (∀ c ∈ seeds, c.1 < cfg.memCells ∧ inCellDomain cfg.cellBits c.2) →
    ∃ s, launch cfg prog seeds = .next s ∧ s.cfg = cfg ∧ s.prog = prog ∧ s.acc = 0 ∧ s.pc = 0 ∧
      (∀ i, s.mem.read i = ((seeds.reverse.find? fun c => c.1 == i).map Prod.snd).getD 0) ∧
      (cfg.strictLength = true ∧ prog.length % 4 ≠ 0 →
        s.fault = some { cause := .malformedInput, info := BitVec.ofNat 28 (prog.length % 4)
                         fpc := prog.length / 4 } ∧ finalState s = s) ∧
      (cfg.strictLength = false ∨ prog.length % 4 = 0 → s.fault = none)

/-- The exported window (70_reset_and_hazards.md section 3; the clamping formula is general knowledge, K1): in DONE, for
bounds that are not negative, the cells from the clamped start to the clamped end in order; elsewhere a refusal. -/
def Obligations.WindowIsTheClampedSlice : Prop :=
  (∀ (s : State) (start stop : Nat), s.isDone →
    ∃ w, exportMemory s start stop = .ok w ∧
      w.length = min stop s.cfg.memCells - min start s.cfg.memCells ∧
      ∀ k, k < w.length → w[k]? = some (s.mem.read (min start s.cfg.memCells + k))) ∧
  (∀ (s : State) (start stop : Int), ¬ s.isDone → exportMemory s start stop = .error .exportNotDone) ∧
  (∀ (s : State) (start stop : Int), s.isDone → start < 0 ∨ stop < 0 →
    exportMemory s start stop = .error .exportNegativeBound)

/-- What the host reads at the end (70_reset_and_hazards.md section 3, 60_exceptions.md section 4; the spec's own
decisions D11, D16 and D18): `ACC` in DONE, the record in FAULTED, where a harness may inspect `ACC` and every cell
too; nothing while a step is enabled, and nothing of a machine that is not launched. -/
def Obligations.HostReadsTheResultAfterTheRun : Prop :=
  (∀ s : State, s.isDone → hostRead hostResult (.launched s) = .ok (.good s.acc)) ∧
  (∀ (s : State) (r : FaultRecord), s.fault = some r → hostRead hostResult (.launched s) = .ok (.failed r)) ∧
  (∀ s : State, s.isFaulted →
    ∃ w, hostRead inspect (.launched s) = .ok { acc := s.acc, cells := w } ∧ w.length = s.cfg.memCells ∧
      ∀ k, k < s.cfg.memCells → w[k]? = some (s.mem.read k)) ∧
  (∀ s : State, s.isRunning → hostRead hostResult (.launched s) = .error .hostDuringRun ∧
    hostRead inspect (.launched s) = .error .inspectNotFaulted ∧
    ∀ start stop, hostRead (fun t => exportMemory t start stop) (.launched s) = .error .exportNotDone) ∧
  (∀ p : Preparation, hostRead hostResult (.preparing p) = .error .notBooted ∧
    hostRead inspect (.preparing p) = .error .notBooted ∧
    ∀ start stop, hostRead (fun t => exportMemory t start stop) (.preparing p) = .error .notBooted)

/-! ## Runs -/

/-- R79: a run is the fold of the decoded stream; it ends after at most `N` steps, and with no fault after exactly `N`,
every one of them enabled. -/
def Obligations.RunIsTheFoldAndEndsWithinNSteps : Prop :=
  ∀ s : State, s.pc = 0 →
    finalState s = foldProgram s ∧ ¬ (finalState s).isRunning ∧
    (∃ k, k ≤ instrCount s.prog ∧ finalState s = runSteps k s ∧ ∀ j, j < k → (runSteps j s).isRunning) ∧
    ((finalState s).fault = none →
      (finalState s).pc = instrCount s.prog ∧
      ∀ j, j ≤ instrCount s.prog → (runSteps j s).pc = j ∧ (runSteps j s).fault = none)

/-- 70_reset_and_hazards.md section 4: a run ends DONE exactly when the program meets software's whole obligation: every
index below `MEM_CELLS` and only the four defined opcodes. -/
def Obligations.SafeProgramsAreThoseThatEndDone : Prop :=
  ∀ s : State, s.beforeRun → (SafeProgram s.cfg s.prog ↔ GoodRun s)

/-- 60_exceptions.md section 3: the fault a run reports is the one of the first element of the stream that faults, at its
position; what stands after it is never examined (the record is the spec's own decision D5). -/
def Obligations.FirstFaultInStreamOrderIsReported : Prop :=
  ∀ s : State, s.beforeRun →
    (∀ p r, firstFault s.cfg.memCells 0 (decodeStream s.prog) = some (p, r) →
      (finalState s).fault = some { cause := r.cause, info := r.info, fpc := p } ∧ (finalState s).pc = p ∧
        ∃ t, runSteps p s = t ∧ t.fault = none ∧ SameCells t (finalState s) ∧ (finalState s).acc = t.acc) ∧
    (firstFault s.cfg.memCells 0 (decodeStream s.prog) = none → (finalState s).isDone)

/-- Every step keeps the value set of a run (43_equality.md section on the value set, which the spec marks "derived"): 0,
1, pre-seeded values, and operands of `ldc` already executed. -/
def Obligations.StepKeepsTheValueSet : Prop :=
  ∀ (seeds : List Int) (s t : State), s.Inv → s.ValuesFrom seeds → step s = .next t → t.ValuesFrom seeds

/-- A launch starts with `ACC` 0 and with 0 and pre-seeded values in the cells, so inside the value set. -/
def Obligations.LaunchStartsInTheValueSet : Prop :=
  ∀ (cfg : Config) (prog : List Byte) (seeds : List (Nat × Int)) (s : State),
    launch cfg prog seeds = .next s →
    s.acc = 0 ∧ (∀ i, s.mem.read i = 0 ∨ s.mem.read i ∈ seeds.map Prod.snd) ∧ s.ValuesFrom (seeds.map Prod.snd)

/-- The width of a cell cannot be seen (the spec's own decision D1): two machines that differ only in `CELL_BITS`, both
29 or more, run alike. -/
def Obligations.CellWidthCannotBeObserved : Prop :=
  ∀ (s : State) (w k : Nat), 29 ≤ s.cfg.cellBits → 29 ≤ w →
    runSteps k { s with cfg := { s.cfg with cellBits := w } } =
      { runSteps k s with cfg := { s.cfg with cellBits := w } }

/-- The bytes after the last whole chunk are not looked at by any step (40_fetch_decode.md sections 1 and 3). -/
def Obligations.LeftoverBytesAreNotLookedAt : Prop :=
  ∀ (s : State) (rest : List Byte) (k : Nat), s.prog.length % 4 = 0 → rest.length < 4 →
    runSteps k { s with prog := s.prog ++ rest } = { runSteps k s with prog := s.prog ++ rest }

/-- The four blocks joined by the interfaces of 10_state.md section 8 (the spec's own decision D9) are the machine: where
a step is enabled, the two designs give the same next state. What `rdata` and the ALU's next `ACC` carry where the
spec gives them no value is the model's choice (log 16), and no next state depends on it. -/
def Obligations.BlocksAgreeWithStep : Prop :=
  ∀ s : State, s.isRunning → step s = .next (blockStep s)

/-- A table word placed by `withFetchWord` is what the next step runs (log 10). -/
def Obligations.PlacedTableWordIsRunNext : Prop :=
  ∀ (s : State) (nbits w : Nat) (i : Instr), decodeTableWord nbits w = some i →
    step (s.withFetchWord nbits w) = exec i (s.withFetchWord nbits w) ∧
      (s.withFetchWord nbits w).pc = s.pc ∧ (s.withFetchWord nbits w).acc = s.acc ∧
      (s.withFetchWord nbits w).mem = s.mem ∧ (s.withFetchWord nbits w).cfg = s.cfg

/-! ## The toolchain -/

/-- 30_encoding.md section 6: the mnemonic table and its inverse agree, and only the four opcodes have a mnemonic. -/
def Obligations.MnemonicTableInverts : Prop :=
  ∀ opcode : Opcode, mnemonicToOpcode (opcodeToMnemonic opcode) = .ok opcode ↔ opcode ∈ [2#4, 7#4, 11#4, 12#4]

/-- 30_encoding.md section 6: a line of blanks, or of blanks followed by `#` and any text, can be put before any line
of a source text or removed from there, and the text assembles to the same instructions or the same error. -/
def Obligations.BlankAndCommentLinesCanBeRemoved : Prop :=
  ∀ (blanks comment before after : List Char),
    (∀ c ∈ blanks, c = ' ' ∨ c = '\t') → (∀ c ∈ comment, isNewline c = false) →
    assemble (blanks ++ '\n' :: after) = assemble after ∧
    assemble (blanks ++ '#' :: comment ++ '\n' :: after) = assemble after ∧
    assemble (before ++ '\n' :: (blanks ++ '\n' :: after)) = assemble (before ++ '\n' :: after) ∧
    assemble (before ++ '\n' :: (blanks ++ '#' :: comment ++ '\n' :: after)) = assemble (before ++ '\n' :: after)

/-- 30_encoding.md section 6: a line that is a mnemonic of the table, blanks, and decimal digits with an optional sign,
with blanks around them, assembles to the mnemonic's opcode and the number written, unreduced (the form of the number
is the spec's own decision D14; that tabs are blanks is log 8). -/
def Obligations.WrittenLinesAssembleToTheirPair : Prop :=
  ∀ (lead gap trail : List Char) (digits : List (Fin 10)) (name : List Char) (opcode : Int),
    (∀ c ∈ lead ++ gap ++ trail, c = ' ' ∨ c = '\t') → gap ≠ [] → digits ≠ [] →
    (name, opcode) ∈ [(['l', 'd', 'c'], (2 : Int)), (['l', 'd', 'r'], 12), (['s', 't'], 11), (['e', 'q'], 7)] →
    let written := digits.map fun d => Char.ofNat (48 + d.val)
    let value : Nat := digits.foldl (fun n d => 10 * n + d.val) 0
    assembleLine (lead ++ name ++ gap ++ written ++ trail) = .ok { opcode := opcode, operand := value } ∧
    assembleLine (lead ++ name ++ gap ++ '+' :: written ++ trail) = .ok { opcode := opcode, operand := value } ∧
    assembleLine (lead ++ name ++ gap ++ '-' :: written ++ trail) = .ok { opcode := opcode, operand := -value }

/-- 30_encoding.md section 6: a text with a line that is neither blank nor a comment is an error where the line's first
word is no mnemonic of the table, and where the line is not exactly two words of which the second is digits after at most
one sign (the form of the number is the spec's own decision D14). With only one of the two defects the error is that of
the defect. The line may be the whole text, or stand after lines that assemble and before any others (that the first
faulty line is the one reported is DEDUCED, log 15). The words may hold any characters of any alphabet but those whose
treatment as white space the spec leaves open (log 8). -/
def Obligations.WrongLinesAreErrors : Prop :=
  ∀ (lead trail last : List Char) (others : List (List Char × List Char)),
    let words := others.map Prod.fst ++ [last]
    let line := lead ++ others.flatMap (fun p => p.1 ++ p.2) ++ last ++ trail
    (∀ c ∈ lead ++ others.flatMap Prod.snd ++ trail, c = ' ' ∨ c = '\t') → (∀ p ∈ others, p.2 ≠ []) →
    (∀ w ∈ words, w ≠ [] ∧ ∀ c ∈ w, c ≠ ' ' ∧ c ≠ '\t' ∧ c ≠ '\n' ∧ mayBeSpace c = false) →
    (words.headD []).head? ≠ some '#' →
    let known := words.headD [] ∈ [['l', 'd', 'c'], ['l', 'd', 'r'], ['s', 't'], ['e', 'q']]
    let formed := ∃ (name sign : List Char) (digits : List (Fin 10)),
      words = [name, sign ++ digits.map fun d => Char.ofNat (48 + d.val)] ∧ sign ∈ [[], ['+'], ['-']] ∧ digits ≠ []
    ∀ text : List Char,
      (text = line ∨ ∃ before after rs, assemble before = .ok rs ∧ text = before ++ '\n' :: (line ++ '\n' :: after)) →
      (¬ known ∨ ¬ formed → ∃ e, assemble text = .error e) ∧
      (known → ¬ formed → assemble text = .error .malformedLine) ∧
      (¬ known → formed → assemble text = .error .unknownMnemonic)

/-- R66: the emitted stream is exactly the encodings in order, a legal stream of `k` instructions with no leftover bytes,
and holds no reserved opcode. -/
def Obligations.AssembledStreamIsLegal : Prop :=
  ∀ (text : List Char) (rs : List RawInstr), assemble text = .ok rs →
    (emitBinary rs).length = 4 * rs.length ∧ instrCount (emitBinary rs) = rs.length ∧
    leftover (emitBinary rs) = 0 ∧
    (∀ p r, rs[p]? = some r → fetch (emitBinary rs) p = encodeRaw r) ∧
    ∀ d ∈ decodeStream (emitBinary rs), ∃ i, d = .ok i
end

