-- ==== Sys2Proof/Laws/Decode.lean ====
section
/-! SUPPORT. What the decoder can answer, and how words, chunks and streams fit together. -/

namespace Sys2Proof.Laws

/-- Every instruction is well formed: its operand is 28 bits by type. -/
theorem instr_wf (i : Instr) : i.wf := i.operand.isLt

/-- The decoder's second half fails only on an opcode outside the table. -/
theorem dispatchFields_error {f : Fields} {e : DecodeError} (h : dispatchFields f = .error e) :
    e = .unknownOpcode f.opcode ∧ f.opcode ∉ [2#4, 7#4, 11#4, 12#4] := by
  unfold dispatchFields at h
  repeat' split at h
  all_goals cases h
  simp_all

/-- The decoder's second half answers an instruction only for the pair that instruction stands for. -/
theorem dispatchFields_ok {f : Fields} {i : Instr} (h : dispatchFields f = .ok i) : f = i.fields := by
  obtain ⟨o, m⟩ := f
  unfold dispatchFields at h
  repeat' split at h
  all_goals cases h
  all_goals simp_all [Instr.fields, Instr.opcode, Instr.operand]

/-- What the decoder rejects, it rejects by the opcode's name. -/
theorem decode_error {c : Chunk} {e : DecodeError} (h : decode c = .error e) :
    e = .unknownOpcode (decodeFields c).opcode ∧ (decodeFields c).opcode ∉ [2#4, 7#4, 11#4, 12#4] :=
  dispatchFields_error h

/-- What the decoder accepts, it read from both fields. -/
theorem decode_ok {c : Chunk} {i : Instr} (h : decode c = .ok i) : decodeFields c = i.fields :=
  dispatchFields_ok h

/-- Two fields side by side, as a number. -/
theorem append_toNat {v w : Nat} (x : BitVec v) (y : BitVec w) :
    (x ++ y).toNat = 2 ^ w * x.toNat + y.toNat := by
  rw [BitVec.toNat_append, ← Nat.shiftLeft_add_eq_or_of_lt y.isLt, Nat.shiftLeft_eq, Nat.mul_comm]

/-- The word of four bytes is the little-endian sum. -/
theorem wordOfChunk_toNat (c : Chunk) :
    (wordOfChunk c).toNat =
      c.b0.toNat + 2 ^ 8 * c.b1.toNat + 2 ^ 16 * c.b2.toNat + 2 ^ 24 * c.b3.toNat := by
  simp only [wordOfChunk, append_toNat]
  omega

/-- The word of a pair, as a number. -/
theorem wordOfFields_toNat (f : Fields) :
    (wordOfFields f).toNat = 2 ^ 4 * f.operand.toNat + f.opcode.toNat := append_toNat _ _

/-- A slice of a word, as a number. -/
theorem slice_toNat {w : Nat} (x : BitVec w) (start len : Nat) :
    (x.extractLsb' start len).toNat = x.toNat / 2 ^ start % 2 ^ len := by
  rw [BitVec.extractLsb'_toNat, Nat.shiftRight_eq_div_pow]

/-- A stream's chunks number `N`. -/
theorem chunksOf_length (prog : List Byte) : (chunksOf prog).length = prog.length / 4 := by
  induction prog using chunksOf.induct with
  | case1 b0 b1 b2 b3 rest ih => simp only [chunksOf, List.length_cons, ih]; omega
  | case2 short h =>
    have : short.length < 4 := by
      rcases short with _ | ⟨a, _ | ⟨b, _ | ⟨c, _ | ⟨d, r⟩⟩⟩⟩ <;> simp
      exact absurd rfl (h a b c d r)
    rw [chunksOf]
    · simp; omega
    · exact h

end Sys2Proof.Laws
end

