-- ==== Sys2Proof/Laws/Memory.lean ====
section
/-! SUPPORT. The data memory: reads after writes, and the canonical form every operation keeps. -/

namespace Sys2Proof.Laws

open Sys2Proof.Machine

@[simp] theorem read_nil (i : Nat) : Memory.read [] i = 0 := rfl

theorem read_cons (j : Nat) (v : Int) (rest : Memory) (i : Nat) :
    Memory.read ((j, v) :: rest) i = if j = i then v else Memory.read rest i := rfl

/-- A cell that is not listed reads as the reset value. -/
theorem read_eq_zero_of_not_listed {mem : Memory} {i : Nat} (h : ∀ c ∈ mem, c.1 ≠ i) :
    mem.read i = 0 := by
  induction mem with
  | nil => rfl
  | cons c rest ih =>
    simp only [List.mem_cons, forall_eq_or_imp] at h
    obtain ⟨j, v⟩ := c
    simp [read_cons, h.1, ih h.2]

/-- Every read is 0 or a listed value. -/
theorem read_eq_zero_or_listed (mem : Memory) (i : Nat) : mem.read i = 0 ∨ (i, mem.read i) ∈ mem := by
  induction mem with
  | nil => exact .inl rfl
  | cons c rest ih =>
    obtain ⟨j, v⟩ := c
    by_cases hj : j = i
    · subst hj; exact .inr (by simp [read_cons])
    · simp only [read_cons, hj, if_false, List.mem_cons]
      exact ih.imp_right .inr

/-- A write leaves every other cell alone, in any memory. -/
theorem read_write_other (mem : Memory) {i k : Nat} (v : Int) (h : k ≠ i) :
    (mem.write i v).read k = mem.read k := by
  induction mem with
  | nil =>
    unfold Memory.write
    split <;> simp [read_cons, Ne.symm h]
  | cons c rest ih =>
    obtain ⟨j, w⟩ := c
    unfold Memory.write
    split
    · split <;> simp [read_cons, Ne.symm h]
    · split
      · subst_vars; split <;> simp [read_cons, Ne.symm h]
      · simp [read_cons, ih]

/-- A read after a write to the same cell gives the value written. -/
theorem read_write_same {mem : Memory} (hw : mem.wf) (i : Nat) (v : Int) :
    (mem.write i v).read i = v := by
  induction mem with
  | nil =>
    unfold Memory.write
    split <;> simp_all [read_cons, Memory.unlisted]
  | cons c rest ih =>
    obtain ⟨j, w⟩ := c
    have hrest : Memory.wf rest :=
      ⟨(List.pairwise_cons.mp hw.1).2, fun c hc => hw.2 c (List.mem_cons_of_mem _ hc)⟩
    have hgt : ∀ c ∈ rest, j < c.1 := (List.pairwise_cons.mp hw.1).1
    unfold Memory.write
    split
    · next hlt =>
      split
      · next hv =>
        rw [hv]
        refine read_eq_zero_of_not_listed fun c hc => ?_
        rcases List.mem_cons.mp hc with rfl | hc
        · exact (Nat.ne_of_gt hlt)
        · exact (Nat.ne_of_gt (Nat.lt_trans hlt (hgt c hc)))
      · simp [read_cons]
    · split
      · next heq =>
        split
        · next hv =>
          rw [hv]
          exact read_eq_zero_of_not_listed fun c hc => heq ▸ Nat.ne_of_gt (hgt c hc)
        · simp [read_cons]
      · next hne => simp [read_cons, Ne.symm hne, ih hrest]

/-- The entries of a memory after a write: the one written, or an old one of another cell or value. -/
theorem mem_write {mem : Memory} {i : Nat} {v : Int} {c : Nat × Int} (h : c ∈ mem.write i v) :
    (c = (i, v) ∧ v ≠ 0) ∨ c ∈ mem := by
  induction mem with
  | nil =>
    unfold Memory.write at h
    split at h <;> simp_all [Memory.unlisted]
  | cons d rest ih =>
    obtain ⟨j, w⟩ := d
    unfold Memory.write at h
    split at h
    · split at h
      · exact .inr h
      · rcases List.mem_cons.mp h with rfl | h
        · exact .inl ⟨rfl, ‹_›⟩
        · exact .inr h
    · split at h
      · split at h
        · exact .inr (List.mem_cons_of_mem _ h)
        · rcases List.mem_cons.mp h with rfl | h
          · exact .inl ⟨rfl, ‹_›⟩
          · exact .inr (List.mem_cons_of_mem _ h)
      · rcases List.mem_cons.mp h with rfl | h
        · exact .inr (List.mem_cons_self)
        · exact (ih h).imp_right (List.mem_cons_of_mem _)

/-- The empty memory, every cell at its reset value, has the canonical form. -/
theorem nil_wf : Memory.wf [] := ⟨.nil, by simp⟩

/-- A write keeps the canonical form. -/
theorem write_wf {mem : Memory} (hw : mem.wf) (i : Nat) (v : Int) : (mem.write i v).wf := by
  refine ⟨?_, fun c hc => ?_⟩
  · induction mem with
    | nil => unfold Memory.write; split <;> simp
    | cons d rest ih =>
      obtain ⟨j, w⟩ := d
      have hrest : Memory.wf rest :=
        ⟨(List.pairwise_cons.mp hw.1).2, fun c hc => hw.2 c (List.mem_cons_of_mem _ hc)⟩
      have hgt : ∀ c ∈ rest, j < c.1 := (List.pairwise_cons.mp hw.1).1
      unfold Memory.write
      split
      · next hlt =>
        split
        · exact hw.1
        · refine List.pairwise_cons.mpr ⟨fun c hc => ?_, hw.1⟩
          rcases List.mem_cons.mp hc with rfl | hc
          · exact hlt
          · exact Nat.lt_trans hlt (hgt c hc)
      · split
        · next heq =>
          split
          · exact hrest.1
          · exact List.pairwise_cons.mpr ⟨fun c hc => heq ▸ hgt c hc, hrest.1⟩
        · next hnlt hne =>
          refine List.pairwise_cons.mpr ⟨fun c hc => ?_, ih hrest⟩
          rcases mem_write hc with ⟨rfl, -⟩ | hc
          · simp only; omega
          · exact hgt c hc
  · rcases mem_write hc with ⟨rfl, hv⟩ | hc
    · exact hv
    · exact hw.2 c hc

/-- The reset state's memory has the canonical form. -/
theorem reset_mem_wf : State.reset.mem.wf := nil_wf

end Sys2Proof.Laws
end

