-- ==== Sys2Proof/Laws/State.lean ====
section
/-! SUPPORT. One lemma for each field of each update of the state, all true by rfl. -/

namespace Sys2Proof.Laws

open Sys2Proof.Machine

@[simp] theorem setAcc_cfg (s : State) (v : Int) : (s.setAcc v).cfg = s.cfg := rfl
@[simp] theorem setAcc_prog (s : State) (v : Int) : (s.setAcc v).prog = s.prog := rfl
@[simp] theorem setAcc_acc (s : State) (v : Int) : (s.setAcc v).acc = v := rfl
@[simp] theorem setAcc_mem (s : State) (v : Int) : (s.setAcc v).mem = s.mem := rfl
@[simp] theorem setAcc_pc (s : State) (v : Int) : (s.setAcc v).pc = s.pc := rfl
@[simp] theorem setAcc_fault (s : State) (v : Int) : (s.setAcc v).fault = s.fault := rfl

@[simp] theorem setMem_cfg (s : State) (mem : Memory) : (s.setMem mem).cfg = s.cfg := rfl
@[simp] theorem setMem_prog (s : State) (mem : Memory) : (s.setMem mem).prog = s.prog := rfl
@[simp] theorem setMem_acc (s : State) (mem : Memory) : (s.setMem mem).acc = s.acc := rfl
@[simp] theorem setMem_mem (s : State) (mem : Memory) : (s.setMem mem).mem = mem := rfl
@[simp] theorem setMem_pc (s : State) (mem : Memory) : (s.setMem mem).pc = s.pc := rfl
@[simp] theorem setMem_fault (s : State) (mem : Memory) : (s.setMem mem).fault = s.fault := rfl

@[simp] theorem advance_cfg (s : State) : s.advance.cfg = s.cfg := rfl
@[simp] theorem advance_prog (s : State) : s.advance.prog = s.prog := rfl
@[simp] theorem advance_acc (s : State) : s.advance.acc = s.acc := rfl
@[simp] theorem advance_mem (s : State) : s.advance.mem = s.mem := rfl
@[simp] theorem advance_pc (s : State) : s.advance.pc = s.pc + 1 := rfl
@[simp] theorem advance_fault (s : State) : s.advance.fault = s.fault := rfl

@[simp] theorem raiseAt_cfg (s : State) (r : Raise) (n : Nat) : (s.raiseAt r n).cfg = s.cfg := rfl
@[simp] theorem raiseAt_prog (s : State) (r : Raise) (n : Nat) : (s.raiseAt r n).prog = s.prog := rfl
@[simp] theorem raiseAt_acc (s : State) (r : Raise) (n : Nat) : (s.raiseAt r n).acc = s.acc := rfl
@[simp] theorem raiseAt_mem (s : State) (r : Raise) (n : Nat) : (s.raiseAt r n).mem = s.mem := rfl
@[simp] theorem raiseAt_pc (s : State) (r : Raise) (n : Nat) : (s.raiseAt r n).pc = s.pc := rfl
@[simp] theorem raiseAt_fault (s : State) (r : Raise) (n : Nat) :
    (s.raiseAt r n).fault = some { cause := r.cause, info := r.info, fpc := n } := rfl

@[simp] theorem raise_cfg (s : State) (r : Raise) : (s.raise r).cfg = s.cfg := rfl
@[simp] theorem raise_prog (s : State) (r : Raise) : (s.raise r).prog = s.prog := rfl
@[simp] theorem raise_acc (s : State) (r : Raise) : (s.raise r).acc = s.acc := rfl
@[simp] theorem raise_mem (s : State) (r : Raise) : (s.raise r).mem = s.mem := rfl
@[simp] theorem raise_pc (s : State) (r : Raise) : (s.raise r).pc = s.pc := rfl
@[simp] theorem raise_fault (s : State) (r : Raise) :
    (s.raise r).fault = some { cause := r.cause, info := r.info, fpc := s.pc } := rfl

@[simp] theorem applyReset_cfg (s : State) : s.applyReset.cfg = s.cfg := rfl
@[simp] theorem applyReset_prog (s : State) : s.applyReset.prog = s.prog := rfl
@[simp] theorem applyReset_acc (s : State) : s.applyReset.acc = 0 := rfl
@[simp] theorem applyReset_mem (s : State) : s.applyReset.mem = [] := rfl
@[simp] theorem applyReset_pc (s : State) : s.applyReset.pc = 0 := rfl
@[simp] theorem applyReset_fault (s : State) : s.applyReset.fault = none := rfl

end Sys2Proof.Laws
end

