-- ==== Sys2Proof/Laws/Ops.lean ====
section
/-! SUPPORT. What each shared operation can do, said once; the inversion of `exec` and of `step`. -/

namespace Sys2Proof.Laws

open Sys2Proof.Machine

/-- A constant operand is its own value, at every admitted width (43_equality.md R96). -/
theorem constantOperand_eq {w : Nat} (hw : 29 ≤ w) (m : Operand) : constantOperand w m = m.toNat := by
  have hm : m.toNat < 2 ^ 28 := m.isLt
  have h28 : 2 ^ 28 * 2 ≤ 2 ^ w := by
    calc 2 ^ 28 * 2 = 2 ^ 29 := by norm_num
      _ ≤ 2 ^ w := Nat.pow_le_pow_right (by norm_num) hw
  have hmod : m.toNat % 2 ^ w = m.toNat := Nat.mod_eq_of_lt (by omega)
  unfold constantOperand
  rw [BitVec.toInt_eq_toNat_cond, BitVec.toNat_setWidth, hmod, if_pos (by omega)]

/-- `memRead` answers a value only for a cell that exists. -/
theorem memRead_ok {s : State} {m : Operand} {v : Int} (h : memRead s m = .ok v) :
    indexOperand m < s.cfg.memCells ∧ v = s.mem.read (indexOperand m) := by
  unfold memRead at h
  split at h
  · cases h
  · exact ⟨by omega, by cases h; rfl⟩

/-- `memRead` raises only the index fault of an index outside the memory. -/
theorem memRead_error {s : State} {m : Operand} {r : Raise} (h : memRead s m = .error r) :
    s.cfg.memCells ≤ indexOperand m ∧ r = .indexFault m := by
  unfold memRead at h
  split at h
  · exact ⟨‹_›, by cases h; rfl⟩
  · cases h

/-- `memWrite` answers a state only for a cell that exists, with that one cell written. -/
theorem memWrite_ok {s t : State} {m : Operand} {v : Int} (h : memWrite s m v = .ok t) :
    indexOperand m < s.cfg.memCells ∧ t = s.setMem (s.mem.write (indexOperand m) v) := by
  unfold memWrite at h
  split at h
  · cases h
  · exact ⟨by omega, by cases h; rfl⟩

/-- `memWrite` raises only the index fault of an index outside the memory. -/
theorem memWrite_error {s : State} {m : Operand} {v : Int} {r : Raise} (h : memWrite s m v = .error r) :
    s.cfg.memCells ≤ indexOperand m ∧ r = .indexFault m := by
  unfold memWrite at h
  split at h
  · exact ⟨‹_›, by cases h; rfl⟩
  · cases h

/-- `finish` answers the writes with `PC` advanced, or the fault taken in the starting state. -/
theorem finish_next {s t : State} {r : Except Raise State} (h : finish s r = .next t) :
    (∃ u, r = .ok u ∧ t = u.advance) ∨ (∃ e, r = .error e ∧ t = s.raise e) := by
  cases r with
  | ok u => exact .inl ⟨u, rfl, by simpa [finish] using h.symm⟩
  | error e => exact .inr ⟨e, rfl, by simpa [finish] using h.symm⟩

/-- Everything `ldc` can do. -/
theorem execLdc_next {m : Operand} {s t : State} (h : execLdc m s = .next t) :
    t = (s.setAcc (constantOperand s.cfg.cellBits m)).advance := by
  rcases finish_next h with ⟨u, hu, rfl⟩ | ⟨e, he, -⟩
  · cases hu; rfl
  · cases he

/-- Everything `ldr` can do. -/
theorem execLdr_next {m : Operand} {s t : State} (h : execLdr m s = .next t) :
    (indexOperand m < s.cfg.memCells ∧ t = (s.setAcc (s.mem.read (indexOperand m))).advance) ∨
      (s.cfg.memCells ≤ indexOperand m ∧ t = s.raise (.indexFault m)) := by
  cases hr : memRead s m with
  | ok v =>
    obtain ⟨hm, rfl⟩ := memRead_ok hr
    simp only [execLdr, hr, Except.map, finish] at h
    cases h; exact .inl ⟨hm, rfl⟩
  | error r =>
    obtain ⟨hm, rfl⟩ := memRead_error hr
    simp only [execLdr, hr, Except.map, finish] at h
    cases h; exact .inr ⟨hm, rfl⟩

/-- Everything `st` can do. -/
theorem execSt_next {m : Operand} {s t : State} (h : execSt m s = .next t) :
    (indexOperand m < s.cfg.memCells ∧
        t = (s.setMem (s.mem.write (indexOperand m) s.acc)).advance) ∨
      (s.cfg.memCells ≤ indexOperand m ∧ t = s.raise (.indexFault m)) := by
  cases hr : memWrite s m s.acc with
  | ok v =>
    obtain ⟨hm, rfl⟩ := memWrite_ok hr
    simp only [execSt, hr, finish] at h
    cases h; exact .inl ⟨hm, rfl⟩
  | error r =>
    obtain ⟨hm, rfl⟩ := memWrite_error hr
    simp only [execSt, hr, finish] at h
    cases h; exact .inr ⟨hm, rfl⟩

/-- Everything `eq` can do. -/
theorem execEq_next {m : Operand} {s t : State} (h : execEq m s = .next t) :
    (indexOperand m < s.cfg.memCells ∧
        t = (s.setAcc (equalityResult s.acc (s.mem.read (indexOperand m)))).advance) ∨
      (s.cfg.memCells ≤ indexOperand m ∧ t = s.raise (.indexFault m)) := by
  cases hr : memRead s m with
  | ok v =>
    obtain ⟨hm, rfl⟩ := memRead_ok hr
    simp only [execEq, hr, Except.map, finish] at h
    cases h; exact .inl ⟨hm, rfl⟩
  | error r =>
    obtain ⟨hm, rfl⟩ := memRead_error hr
    simp only [execEq, hr, Except.map, finish] at h
    cases h; exact .inr ⟨hm, rfl⟩

/-- `finish` always answers a next state. -/
theorem finish_total (s : State) (r : Except Raise State) : ∃ t, finish s r = .next t := by
  cases r <;> exact ⟨_, rfl⟩

/-- Everything an instruction can do: complete with new `ACC` or `MEM` and `PC` advanced, or take the index
fault of its operand. -/
theorem exec_next_cases {i : Instr} {s t : State} (h : exec i s = .next t) :
    (∃ m, i = .ldc m ∧ t = (s.setAcc (constantOperand s.cfg.cellBits m)).advance) ∨
    (∃ m, i = .ldr m ∧ indexOperand m < s.cfg.memCells ∧
      t = (s.setAcc (s.mem.read (indexOperand m))).advance) ∨
    (∃ m, i = .st m ∧ indexOperand m < s.cfg.memCells ∧
      t = (s.setMem (s.mem.write (indexOperand m) s.acc)).advance) ∨
    (∃ m, i = .eq m ∧ indexOperand m < s.cfg.memCells ∧
      t = (s.setAcc (equalityResult s.acc (s.mem.read (indexOperand m)))).advance) ∨
    (∃ m, (i = .ldr m ∨ i = .st m ∨ i = .eq m) ∧ s.cfg.memCells ≤ indexOperand m ∧
      t = s.raise (.indexFault m)) := by
  cases i with
  | ldc m => exact .inl ⟨m, rfl, execLdc_next h⟩
  | ldr m =>
    rcases execLdr_next h with ⟨hm, ht⟩ | ⟨hm, ht⟩
    · exact .inr (.inl ⟨m, rfl, hm, ht⟩)
    · exact .inr (.inr (.inr (.inr ⟨m, .inl rfl, hm, ht⟩)))
  | st m =>
    rcases execSt_next h with ⟨hm, ht⟩ | ⟨hm, ht⟩
    · exact .inr (.inr (.inl ⟨m, rfl, hm, ht⟩))
    · exact .inr (.inr (.inr (.inr ⟨m, .inr (.inl rfl), hm, ht⟩)))
  | eq m =>
    rcases execEq_next h with ⟨hm, ht⟩ | ⟨hm, ht⟩
    · exact .inr (.inr (.inr (.inl ⟨m, rfl, hm, ht⟩)))
    · exact .inr (.inr (.inr (.inr ⟨m, .inr (.inr rfl), hm, ht⟩)))

/-- An instruction always answers a next state. -/
theorem exec_total (i : Instr) (s : State) : ∃ t, exec i s = .next t := by
  cases i with
  | ldc m => exact finish_total s (.ok (s.setAcc (constantOperand s.cfg.cellBits m)))
  | eq m => exact finish_total s ((memRead s m).map fun v => s.setAcc (equalityResult s.acc v))
  | st m => exact finish_total s (memWrite s m s.acc)
  | ldr m => exact finish_total s ((memRead s m).map fun v => s.setAcc v)

/-- What is dispatched always answers a next state. -/
theorem dispatch_total (d : Except DecodeError Instr) (s : State) : ∃ t, dispatch d s = .next t := by
  cases d with
  | ok i => exact exec_total i s
  | error e => exact ⟨_, rfl⟩

/-- In a state where a step is enabled, `step` dispatches what is decoded at `PC`. -/
theorem step_of_running {s : State} (h : s.isRunning) :
    step s = dispatch (decode (fetch s.prog s.pc)) s := by
  simp [step, runInstruction, h]

/-- Where no step is enabled, `step` answers no next state. -/
theorem running_of_step {s t : State} (h : step s = .next t) : s.isRunning := by
  unfold step at h
  split at h
  · cases h
  · split at h
    · assumption
    · cases h

/-- Everything a step can do. -/
theorem step_next_cases {s t : State} (h : step s = .next t) :
    s.isRunning ∧
      ((∃ i, decode (fetch s.prog s.pc) = .ok i ∧ exec i s = .next t) ∨
        (∃ e, decode (fetch s.prog s.pc) = .error e ∧ t = s.raise (raiseOfDecodeError e))) := by
  have hr := running_of_step h
  refine ⟨hr, ?_⟩
  rw [step_of_running hr] at h
  cases hd : decode (fetch s.prog s.pc) with
  | ok i => exact .inl ⟨i, rfl, by simpa [hd, dispatch] using h⟩
  | error e => exact .inr ⟨e, rfl, by simpa [hd, dispatch] using h.symm⟩

end Sys2Proof.Laws
end

