-- ==== Sys2Proof/Laws/Launch.lean ====
section
/-! SUPPORT. What each of the host's events can do, said once. -/

namespace Sys2Proof.Laws

open Sys2Proof.Machine

@[simp] theorem prepareAgain_state (s : State) : (prepareAgain s).state = s.applyReset := rfl
@[simp] theorem prepareAgain_loaded (s : State) : (prepareAgain s).loaded = false := rfl
@[simp] theorem construct_loaded (cfg : Config) : (construct cfg).loaded = false := rfl
@[simp] theorem construct_cfg (cfg : Config) : (construct cfg).state.cfg = cfg := rfl
@[simp] theorem construct_mem (cfg : Config) : (construct cfg).state.mem = [] := rfl

/-- A reset machine has its reset values. -/
theorem prepareAgain_inv (s : State) : (prepareAgain s).Inv := ⟨rfl, rfl, rfl, nil_wf, by intro c hc; cases hc⟩

/-- Everything loading a stream can do. -/
theorem loadProgram_next {prog : List Byte} {p q : Preparation} (h : loadProgram prog p = .next q) :
    p.loaded = false ∧ q = { state := { p.state with prog := prog }, loaded := true } := by
  unfold loadProgram at h
  split at h
  · cases h
  · next hl => exact ⟨Bool.eq_false_iff.mpr hl, by cases h; rfl⟩

/-- Everything pre-seeding a cell can do. -/
theorem preSeed_next {i : Nat} {v : Int} {p q : Preparation} (h : preSeed i v p = .next q) :
    i < p.state.cfg.memCells ∧ inCellDomain p.state.cfg.cellBits v ∧
      q = { p with state := p.state.setMem (p.state.mem.write i v) } := by
  unfold preSeed at h
  split at h
  · cases h
  · split at h
    · cases h
    · exact ⟨by omega, not_not.mp ‹_›, by cases h; rfl⟩

/-- Everything the checks before the run can do. -/
theorem boot_next {p : Preparation} {s : State} (h : boot p = .next s) :
    p.loaded = true ∧ p.state.cfg.wf ∧ instrCount p.state.prog ≤ p.state.cfg.progMax ∧
      ((p.state.cfg.strictLength = true ∧ leftover p.state.prog ≠ 0 ∧
          s = p.state.raiseAt (.malformedInput (leftover p.state.prog)) (instrCount p.state.prog)) ∨
        ((p.state.cfg.strictLength = true → leftover p.state.prog = 0) ∧ s = p.state)) := by
  unfold boot at h
  split at h
  · cases h
  split at h
  · cases h
  split at h
  · cases h
  next hl hw hp =>
  refine ⟨not_not.mp hl, not_not.mp hw, by omega, ?_⟩
  split at h
  · next hs => exact .inl ⟨hs.1, hs.2, by cases h; rfl⟩
  · next hs => exact .inr ⟨by tauto, by cases h; rfl⟩

/-- What `inSession` answers, it was given. -/
theorem inSession_next {α : Type} {f : α → Session} {o : Host.Outcome α Fault Refusal} {m : Session}
    (h : inSession f o = .next m) : ∃ a, o = .next a ∧ m = f a := by
  cases o with
  | next a => exact ⟨a, rfl, by cases h; rfl⟩
  | fault r => cases h
  | refused r => cases h

/-- Everything an event of a session can do. -/
theorem hostEvent_next {e : HostEvent} {m n : Session} (h : hostEvent e m = .next n) :
    (e = .reset ∧ n = .preparing (prepareAgain m.state)) ∨
    (∃ prog p q, e = .load prog ∧ m = .preparing p ∧ n = .preparing q ∧ loadProgram prog p = .next q) ∨
    (∃ i v p q, e = .seed i v ∧ m = .preparing p ∧ n = .preparing q ∧ preSeed i v p = .next q) ∨
    (∃ p s, e = .boot ∧ m = .preparing p ∧ n = .launched s ∧ boot p = .next s) ∨
    (∃ s t, e = .step ∧ m = .launched s ∧ n = .launched t ∧ step s = .next t) := by
  cases m with
  | preparing p =>
    cases e with
    | reset => exact .inl ⟨rfl, by cases h; rfl⟩
    | load prog =>
      obtain ⟨q, hq, rfl⟩ := inSession_next h
      exact .inr (.inl ⟨prog, p, q, rfl, rfl, rfl, hq⟩)
    | seed i v =>
      obtain ⟨q, hq, rfl⟩ := inSession_next h
      exact .inr (.inr (.inl ⟨i, v, p, q, rfl, rfl, rfl, hq⟩))
    | boot =>
      obtain ⟨s, hs, rfl⟩ := inSession_next h
      exact .inr (.inr (.inr (.inl ⟨p, s, rfl, rfl, rfl, hs⟩)))
    | step => cases h
  | launched s =>
    cases e with
    | reset => exact .inl ⟨rfl, by cases h; rfl⟩
    | load prog => cases h
    | seed i v => cases h
    | boot => cases h
    | step =>
      obtain ⟨t, ht, rfl⟩ := inSession_next h
      exact .inr (.inr (.inr (.inr ⟨s, t, rfl, rfl, rfl, ht⟩)))

end Sys2Proof.Laws
end

