-- ==== Sys2Proof/Laws/PerInstr.lean ====
section
/-! SUPPORT. Facts about every instruction as syntax, one lemma for each constructor. -/

namespace Sys2Proof.Laws

/-- The low four bits of the word an instruction is encoded in are its row's match under the mask
0x0000000F of spec/opcode_table.json, and its operand is in range. -/
def TableMatch.Statement (i : Instr) : Prop :=
  (wordOfFields i.fields).extractLsb' 0 4 = i.opcode ∧ i.wf

theorem low_bits_of_word (f : Fields) : (wordOfFields f).extractLsb' 0 4 = f.opcode := by
  have ho := f.opcode.isLt
  apply BitVec.eq_of_toNat_eq
  rw [slice_toNat, wordOfFields_toNat]
  omega

theorem TableMatch.ldc (m : Operand) : TableMatch.Statement (.ldc m) :=
  ⟨low_bits_of_word _, instr_wf _⟩

theorem TableMatch.eq (m : Operand) : TableMatch.Statement (.eq m) :=
  ⟨low_bits_of_word _, instr_wf _⟩

theorem TableMatch.st (m : Operand) : TableMatch.Statement (.st m) :=
  ⟨low_bits_of_word _, instr_wf _⟩

theorem TableMatch.ldr (m : Operand) : TableMatch.Statement (.ldr m) :=
  ⟨low_bits_of_word _, instr_wf _⟩

end Sys2Proof.Laws
end

