-- ==== Sys2Proof/Tests/Slice0.lean ====
section
/-! SUPPORT. Tests on fixed values (95_test_vectors.md) and a witness for every statement that has hypotheses. -/

namespace Sys2Proof.Tests

open Sys2Proof.Machine

/-- The state of a next outcome. -/
def stateOf : Host.Outcome State Fault Refusal → Option State
  | .next s => some s
  | .fault _ => none
  | .refused _ => none

/-- Why an outcome is refused. -/
def refusalOf : Host.Outcome State Fault Refusal → Option Refusal
  | .next _ => none
  | .fault _ => none
  | .refused r => some r

/-- A default machine with the given stream, cells and registers. -/
def at_ (prog : List Byte) (mem : Memory) (acc : Int) (pc : Nat) : State :=
  { State.reset with prog := prog, mem := mem, acc := acc, pc := pc }

/-! ## Well-formedness smoke tests: each check refuses an ill-formed term -/

theorem test_raw_opcode_too_large : ¬ RawInstr.wf ⟨16, 0⟩ := by decide
theorem test_raw_opcode_negative : ¬ RawInstr.wf ⟨-1, 0⟩ := by decide
theorem test_raw_operand_too_large : ¬ RawInstr.wf ⟨2, 268435456⟩ := by decide
theorem test_raw_operand_negative : ¬ RawInstr.wf ⟨2, -1⟩ := by decide
theorem test_raw_wf : RawInstr.wf ⟨15, 268435455⟩ := by decide
theorem test_instr_wf : Instr.wf (.ldr 268435455#28) := by decide
theorem test_config_too_many_cells : ¬ Config.wf { Config.standard with memCells := 2 ^ 28 + 1 } := by decide
theorem test_config_too_narrow : ¬ Config.wf { Config.standard with cellBits := 28 } := by decide
theorem test_config_standard : Config.standard.wf := by decide
theorem test_domain_too_large : ¬ inCellDomain 32 2147483648 := by decide
theorem test_domain_too_small : ¬ inCellDomain 32 (-2147483649) := by decide
theorem test_memory_unsorted : ¬ Memory.wf [(5, 1), (3, 2)] := by decide
theorem test_memory_repeated : ¬ Memory.wf [(3, 1), (3, 2)] := by decide
theorem test_memory_lists_reset_value : ¬ Memory.wf [(3, 0)] := by decide

/-! ## Decoding words written out from the spec's encoding (95_test_vectors.md S2 and table D) -/

theorem test_decode_ldc_29 : decode ⟨0xD2#8, 0x01#8, 0x00#8, 0x00#8⟩ = .ok (.ldc 29#28) := by decide
theorem test_decode_ldr_234 : decode ⟨0xAC#8, 0x0E#8, 0x00#8, 0x00#8⟩ = .ok (.ldr 234#28) := by decide
theorem test_decode_st_361 : decode ⟨0x9B#8, 0x16#8, 0x00#8, 0x00#8⟩ = .ok (.st 361#28) := by decide
theorem test_decode_eq_626 : decode ⟨0x27#8, 0x27#8, 0x00#8, 0x00#8⟩ = .ok (.eq 626#28) := by decide
theorem test_decode_ldc_max : decode ⟨0xF2#8, 0xFF#8, 0xFF#8, 0xFF#8⟩ = .ok (.ldc 268435455#28) := by decide
theorem test_decode_reserved_3 : decode ⟨0xD3#8, 0x04#8, 0x00#8, 0x00#8⟩ = .error (.unknownOpcode 3#4) := by
  decide
theorem test_fields_top_bit : decodeFields ⟨0x00#8, 0x00#8, 0x00#8, 0x80#8⟩ = ⟨0#4, 134217728#28⟩ := by decide
theorem test_not_big_endian : decodeFields ⟨0x00#8, 0x00#8, 0x00#8, 0x02#8⟩ = ⟨0#4, 2097152#28⟩ := by decide
theorem test_encode_eq_30 : encode (.eq 30#28) = ⟨0xE7#8, 0x01#8, 0x00#8, 0x00#8⟩ := by decide
theorem test_encode_masks_opcode : encodeRaw ⟨18, 5⟩ = ⟨0x52#8, 0x00#8, 0x00#8, 0x00#8⟩ := by decide
theorem test_encode_masks_operand : encodeRaw ⟨2, 268435459⟩ = ⟨0x32#8, 0x00#8, 0x00#8, 0x00#8⟩ := by decide
theorem test_encode_negative : encodeRaw ⟨2, -5⟩ = ⟨0xB2#8, 0xFF#8, 0xFF#8, 0xFF#8⟩ := by decide
theorem test_table_word_st : decodeTableWord 32 0x0000169B = some (.st 361#28) := by decide
theorem test_decode_short : decodeBytes [0x52#8, 0x00#8, 0x00#8] = .error (.malformedInput 3) := by decide

/-! ## One step of each instruction (95_test_vectors.md section 3) -/

/-- `ldc 268435455`: zero-extended, positive. -/
theorem test_step_ldc_max :
    stateOf (step (at_ [0xF2#8, 0xFF#8, 0xFF#8, 0xFF#8] [] 7 0)) =
      some (at_ [0xF2#8, 0xFF#8, 0xFF#8, 0xFF#8] [] 268435455 1) := by decide

/-- `ldr 3` copies a pre-seeded -1. -/
theorem test_step_ldr_negative :
    stateOf (step (at_ [0x3C#8, 0x00#8, 0x00#8, 0x00#8] [(3, -1)] 0 0)) =
      some (at_ [0x3C#8, 0x00#8, 0x00#8, 0x00#8] [(3, -1)] (-1) 1) := by decide

/-- `ldr 1024` is the first index outside the memory. -/
theorem test_step_ldr_outside :
    stateOf (step (at_ [0x0C#8, 0x40#8, 0x00#8, 0x00#8] [] 3 0)) =
      some { at_ [0x0C#8, 0x40#8, 0x00#8, 0x00#8] [] 3 0 with
        fault := some { cause := .indexFault, info := 1024#28, fpc := 0 } } := by decide

/-- `st 1023` writes the last cell. -/
theorem test_step_st_last :
    stateOf (step (at_ [0xFB#8, 0x3F#8, 0x00#8, 0x00#8] [(4, 7)] 1 0)) =
      some (at_ [0xFB#8, 0x3F#8, 0x00#8, 0x00#8] [(4, 7), (1023, 1)] 1 1) := by decide

/-- `st 1024` neither wraps nor clamps. -/
theorem test_step_st_outside :
    stateOf (step (at_ [0x0B#8, 0x40#8, 0x00#8, 0x00#8] [(1023, 1)] 1 0)) =
      some { at_ [0x0B#8, 0x40#8, 0x00#8, 0x00#8] [(1023, 1)] 1 0 with
        fault := some { cause := .indexFault, info := 1024#28, fpc := 0 } } := by decide

/-- `eq 4`: 0x0FFFFFFF is not -1, all bits are compared. -/
theorem test_step_eq_all_bits :
    stateOf (step (at_ [0x47#8, 0x00#8, 0x00#8, 0x00#8] [(4, -1)] 268435455 0)) =
      some (at_ [0x47#8, 0x00#8, 0x00#8, 0x00#8] [(4, -1)] 0 1) := by decide

/-- `eq 0` after reset: 0 equals 0. -/
theorem test_step_eq_after_reset :
    stateOf (step (at_ [0x07#8, 0x00#8, 0x00#8, 0x00#8] [] 0 0)) =
      some (at_ [0x07#8, 0x00#8, 0x00#8, 0x00#8] [] 1 1) := by decide

/-- Opcode 3 faults and changes nothing else. -/
theorem test_step_reserved :
    stateOf (step (at_ [0xD3#8, 0x04#8, 0x00#8, 0x00#8] [(0, 5)] 5 0)) =
      some { at_ [0xD3#8, 0x04#8, 0x00#8, 0x00#8] [(0, 5)] 5 0 with
        fault := some { cause := .unknownInstruction, info := 3#28, fpc := 0 } } := by decide

/-- The number of each cause (60_exceptions.md R100); 0 encodes `NONE`. -/
theorem test_cause_codes :
    causeCode none = 0#2 ∧ causeCode (some ⟨.malformedInput, 1#28, 0⟩) = 1#2 ∧
      causeCode (some ⟨.unknownInstruction, 3#28, 0⟩) = 2#2 ∧ causeCode (some ⟨.indexFault, 1024#28, 0⟩) = 3#2 := by
  decide

/-- Reset has an empty stream: it is `DONE` at once (40_fetch_decode.md R80). -/
theorem test_reset_is_done : State.reset.isDone := by decide

/-- A placed table word is run as the first instruction after reset. -/
theorem test_first_instruction_after_reset :
    (stateOf (step (State.reset.withFetchWord 32 0x000002A2))).map (·.acc) = some 42 := by decide

/-! ## The toolchain (95_test_vectors.md table A) -/

theorem test_assemble_spaces_and_comment :
    assemble [' ', 'l', 'd', 'c', ' ', ' ', '0', '7', '\n', '\t', '#', 'x', '\n', 's', 't', ' ', '-', '1'] =
      .ok [⟨2, 7⟩, ⟨11, -1⟩] := by decide
theorem test_assemble_missing_operand : assemble ['l', 'd', 'c'] = .error .malformedLine := by decide
theorem test_assemble_upper_case : assemble ['L', 'D', 'C', ' ', '5'] = .error .unknownMnemonic := by decide
/-- Too many words, an inline comment, a sign out of place (95_test_vectors.md S9 and table A, D14). -/
theorem test_malformed_lines :
    assemble ['l', 'd', 'c', ' ', '1', ' ', '2'] = .error .malformedLine ∧
      assemble ['l', 'd', 'c', ' ', '5', ' ', '#', ' ', 'f'] = .error .malformedLine ∧
      assemble ['s', 't', ' ', '5', '-'] = .error .malformedLine ∧ assemble ['s', 't', ' ', '+'] = .error .malformedLine ∧
      assemble ['s', 't', ' ', '-', '-', '5'] = .error .malformedLine := by decide
/-- A first word that begins with `#` makes the line a comment (30_encoding.md R62). -/
theorem test_comment_is_no_error : assemble ['#', ' ', '5'] = .ok [] ∧ assemble ['#', 'x', ' ', '1'] = .ok [] := by decide
/-- A comment is consumed in full, letters outside ASCII too (30_encoding.md R62). -/
theorem test_comment_with_foreign_letter :
    assemble ['#', ' ', 'c', 'a', 'f', 'é', ' ', '5', '\n', 's', 't', ' ', '7'] = .ok [⟨11, 7⟩] := by decide
/-- A letter outside ASCII is part of its token (30_encoding.md R60), and so is a digit (D14). -/
theorem test_foreign_letter_and_digit :
    assemble ['l', 'd', 'c', 'é', ' ', '5'] = .error .unknownMnemonic ∧
      assemble ['l', 'd', 'c', ' ', '5', '５'] = .error .malformedLine := by decide
theorem test_sentinel : opcodeToMnemonic 13#4 = ['u', 'n', 'k', 'n', 'o', 'w', 'n', '(', '1', '3', ')'] := by
  decide

/-! ## Witnesses: the hypotheses of each statement are met together -/

/-- A state that meets the invariant and in which a step is enabled: `ldc 42; st 1023; st 1024`. -/
def sample : State :=
  at_ [0xA2#8, 0x02#8, 0x00#8, 0x00#8, 0xFB#8, 0x3F#8, 0x00#8, 0x00#8, 0x0B#8, 0x40#8, 0x00#8, 0x00#8] [(4, -1)] 7 0

/-- The sample after its last completed instruction, with the fault its third instruction takes. -/
def sampleFaulted : State :=
  { sample with acc := 42, mem := [(4, -1), (1023, 42)], pc := 2,
                fault := some { cause := .indexFault, info := 1024#28, fpc := 2 } }

theorem sample_inv : sample.Inv where
  config := by decide
  length := by decide
  acc := by decide
  mem := by decide
  cells := by decide
  pc := by decide
  fault := by simp [FaultLegal, sample, at_, State.reset, Config.standard]

theorem witness_sample_runs : sample.isRunning ∧ sample.pc = 0 ∧ sample.beforeRun ∧ 29 ≤ sample.cfg.cellBits := by
  decide
theorem witness_instruction_decoded :
    sample.isRunning ∧ decode (fetch sample.prog sample.pc) = .ok (.ldc 42#28) ∧ Instr.wf (.ldc 42#28) := by decide
theorem witness_step_answers : ∃ t, step sample = .next t := ⟨_, rfl⟩
theorem witness_inv_and_step : sample.Inv ∧ ∃ t, step sample = .next t := ⟨sample_inv, _, rfl⟩
theorem witness_index_inside : indexOperand 1023#28 < sample.cfg.memCells ∧ sample.mem.wf := by decide
theorem witness_index_outside : sample.cfg.memCells ≤ indexOperand 1024#28 := by decide
theorem witness_constant_width : 29 ≤ (at_ [] [] 0 0).cfg.cellBits := by decide
theorem witness_narrowest_width :
    (29 : Nat) ≤ ({ sample with cfg := { sample.cfg with cellBits := 29 } } : State).cfg.cellBits := by decide
theorem witness_short_input : ([0x52#8, 0x00#8, 0x00#8] : List Byte).length < 4 := by decide
theorem witness_reserved_opcode_running :
    (at_ [0x11#8, 0x00#8, 0x00#8, 0x00#8] [] 0 0).isRunning ∧
      (decodeFields (fetch [0x11#8, 0x00#8, 0x00#8, 0x00#8] 0)).opcode ∉ [2#4, 7#4, 11#4, 12#4] := by decide
theorem witness_unknown_fault_taken :
    ∃ t r, step (at_ [0x11#8, 0x00#8, 0x00#8, 0x00#8] [] 0 0) = .next t ∧ t.fault = some r ∧
      r.cause = .unknownInstruction := ⟨_, _, rfl, rfl, rfl⟩
theorem witness_opcode_of_each_rule :
    (decodeFields ⟨0x02#8, 0#8, 0#8, 0#8⟩).opcode = 2#4 ∧ (decodeFields ⟨0x0C#8, 0#8, 0#8, 0#8⟩).opcode = 12#4 ∧
      (decodeFields ⟨0x0B#8, 0#8, 0#8, 0#8⟩).opcode = 11#4 ∧ (decodeFields ⟨0x07#8, 0#8, 0#8, 0#8⟩).opcode = 7#4 ∧
      (decodeFields ⟨0x0F#8, 0#8, 0#8, 0#8⟩).opcode ∉ [2#4, 7#4, 11#4, 12#4] := by decide
theorem witness_cell_and_acc_changed :
    (∃ t, step { sample with pc := 1 } = .next t ∧ t.mem.read 1023 ≠ sample.mem.read 1023) ∧
      ∃ t, step sample = .next t ∧ t.acc ≠ sample.acc := ⟨⟨_, rfl, by decide⟩, _, rfl, by decide⟩
theorem witness_index_fault_step :
    ({ sample with pc := 2 } : State).isRunning ∧ sample.cfg.memCells ≤ indexOperand 1024#28 ∧
      decode (fetch sample.prog 2) = .ok (.st 1024#28) := by decide
theorem witness_ldr_and_eq_index_fault :
    (at_ [0x0C#8, 0x40#8, 0x00#8, 0x00#8] [] 0 0).isRunning ∧
      decode (fetch [0x0C#8, 0x40#8, 0x00#8, 0x00#8] 0) = .ok (.ldr 1024#28) ∧
      (at_ [0x07#8, 0x40#8, 0x00#8, 0x00#8] [] 0 0).isRunning ∧
      decode (fetch [0x07#8, 0x40#8, 0x00#8, 0x00#8] 0) = .ok (.eq 1024#28) := by decide
theorem witness_fault_recorded : ∃ t r, step { sample with pc := 2 } = .next t ∧ t.fault = some r :=
  ⟨_, _, rfl, rfl⟩
theorem witness_faulted : sampleFaulted.isFaulted ∧ ¬ sampleFaulted.isRunning := by decide
theorem witness_done : State.reset.isDone ∧ ¬ State.reset.isRunning := by decide
theorem witness_eq_equal_and_different :
    (at_ [] [(4, -1)] (-1) 0).acc = (at_ [] [(4, -1)] (-1) 0).mem.read (indexOperand 4#28) ∧
      (at_ [] [(4, -1)] 268435455 0).acc ≠ (at_ [] [(4, -1)] 268435455 0).mem.read (indexOperand 4#28) := by decide
theorem witness_domain_bounds : inCellDomain 32 (-2147483648) ∧ inCellDomain 32 2147483647 := by decide
theorem witness_equal_and_different_bits :
    BitVec.ofInt 32 (-1) = BitVec.ofInt 32 (-1) ∧ BitVec.ofInt 32 268435455 ≠ BitVec.ofInt 32 (-1) := by decide
theorem witness_cell_not_stored :
    (∃ t, step sample = .next t) ∧
      ∀ m, decode (fetch sample.prog sample.pc) = .ok (.st m) → indexOperand m ≠ 4 :=
  ⟨⟨_, rfl⟩, fun m h => by
    have hd : decode (fetch sample.prog sample.pc) = .ok (.ldc 42#28) := by decide
    rw [hd] at h; cases h⟩
theorem witness_no_store_for_one_step :
    ∀ p m, sample.pc ≤ p → p < sample.pc + 1 → decode (fetch sample.prog p) = .ok (.st m) → indexOperand m ≠ 4 :=
  fun p m h1 h2 h => by
    have hp : p = 0 := by
      have h0 : sample.pc = 0 := rfl
      omega
    subst hp
    have hd : decode (fetch sample.prog 0) = .ok (.ldc 42#28) := by decide
    rw [hd] at h; cases h
theorem witness_memories_read_alike :
    Memory.wf [(4, -1)] ∧ ∀ i, Memory.read [(4, -1)] i = Memory.read [(4, -1)] i := ⟨by decide, fun _ => rfl⟩
theorem witness_default_machine_resets :
    ({ State.reset with acc := 5, pc := 3 } : State).cfg = Config.standard ∧
      ({ State.reset with acc := 5, pc := 3 } : State).prog = [] := ⟨rfl, rfl⟩
theorem witness_launch_answers :
    ∃ s, launch Config.standard sample.prog [(0, 42), (3, -1), (0, 7)] = .next s := ⟨_, rfl⟩
theorem witness_seeds_accepted :
    Config.standard.wf ∧ instrCount sample.prog ≤ Config.standard.progMax ∧
      ∀ c ∈ [(0, (42 : Int)), (1023, -2147483648)], c.1 < Config.standard.memCells ∧
        inCellDomain Config.standard.cellBits c.2 := by decide
theorem witness_too_long_refused :
    ({ Config.standard with progMax := 2 } : Config).wf ∧
      refusalOf (launch { Config.standard with progMax := 2 } sample.prog []) = some .programTooLong := by decide
theorem witness_seed_index_refused :
    refusalOf (launch Config.standard [] [(1024, 0)]) = some .seedIndexOutOfRange := by decide
theorem witness_seed_value_refused :
    refusalOf (launch Config.standard [] [(1023, 2147483648)]) = some .seedValueOutOfRange := by decide
theorem witness_seed_after_good_seed_refused :
    refusalOf (launch Config.standard [] [(3, -1), (1024, 0)]) = some .seedIndexOutOfRange := by decide
theorem witness_bad_parameters_refused :
    ¬ ({ Config.standard with cellBits := 28 } : Config).wf ∧
      refusalOf (launch { Config.standard with cellBits := 28 } [] []) = some .badParameters := by decide

/-- The session after an outcome. -/
def sessionOf : Host.Outcome Session Fault Refusal → Option Session
  | .next m => some m
  | .fault _ => none
  | .refused _ => none

/-- Why an event of a session is refused. -/
def turnedAway : Host.Outcome Session Fault Refusal → Option Refusal
  | .next _ => none
  | .fault _ => none
  | .refused r => some r

/-- The launch of the empty program on the default machine is the reset state, `DONE` at once. -/
theorem test_empty_launch_is_reset : stateOf (launch Config.standard [] []) = some State.reset := by decide
/-- After an empty program's `DONE` a second stream, a seed and a boot are refused (70_reset_and_hazards.md R129). -/
theorem test_no_second_stream_after_empty_program :
    turnedAway (hostEvent (.load sample.prog) (.launched State.reset)) = some .notBeforeRun ∧
      turnedAway (hostEvent (.seed 0 1) (.launched State.reset)) = some .notBeforeRun ∧
      turnedAway (hostEvent .boot (.launched State.reset)) = some .notBeforeRun := by decide
/-- No step before the checks, no checks before the stream (70_reset_and_hazards.md R122). -/
theorem test_no_step_before_boot :
    turnedAway (hostEvent .step (.preparing (construct Config.standard))) = some .notBooted ∧
      turnedAway (hostEvent .boot (.preparing (construct Config.standard))) = some .notLoaded := by decide
theorem witness_events_answer :
    ∃ m, hostEvents [.seed 4 (-1), .load sample.prog, .seed 5 1, .boot, .step, .step]
        (.preparing (construct Config.standard)) = .next m ∧
      HostEvent.reset ∉ [HostEvent.seed 4 (-1), .load sample.prog, .seed 5 1, .boot, .step, .step] :=
  ⟨_, rfl, by decide⟩
theorem witness_events_in_preparation :
    ∃ p, hostEvents [.seed 4 (-1), .load sample.prog] (.preparing (construct Config.standard)) =
      .next (.preparing p) := ⟨_, rfl⟩
theorem witness_session_event : (Session.launched sample).Inv ∧ ∃ n, hostEvent .step (.launched sample) = .next n :=
  ⟨sample_inv, _, rfl⟩
theorem witness_session_boot :
    ∃ p, (Session.preparing p).Inv ∧ ∃ n, hostEvent .boot (.preparing p) = .next n :=
  ⟨{ state := { State.reset with prog := sample.prog, mem := [(4, -1)] }, loaded := true },
    ⟨rfl, rfl, rfl, by decide, by decide⟩, _, rfl⟩
/-- `52 00 00 00 AB 00` in strict mode: `FAULT = (1, 2, 1)` (95_test_vectors.md, sequencer). -/
theorem witness_strict_leftover :
    (stateOf (launch { Config.standard with strictLength := true }
      [0x52#8, 0x00#8, 0x00#8, 0x00#8, 0xAB#8, 0x00#8] [])).map (·.fault) =
        some (some { cause := .malformedInput, info := 2#28, fpc := 1 }) := by decide
/-- The same stream with a seed: the fault leaves the seeded cell alone (60_exceptions.md R101). -/
theorem witness_strict_leftover_with_seed :
    (stateOf (launch { Config.standard with strictLength := true }
      [0x52#8, 0x00#8, 0x00#8, 0x00#8, 0xAB#8, 0x00#8] [(3, -1)])).map (·.mem) = some [(3, -1)] := by decide
/-- `52 00 00` in the default mode: ignored, `DONE` at once. -/
theorem witness_default_leftover :
    (stateOf (launch Config.standard [0x52#8, 0x00#8, 0x00#8] [])).map (·.fault) = some none := by decide
theorem witness_strict_without_leftover :
    (stateOf (launch { Config.standard with strictLength := true } sample.prog [])).map (·.fault) = some none := by
  decide
theorem witness_window_clamped :
    exportMemory (at_ [] [(1022, 5)] 0 0) 1022 1030 = .ok [5, 0] := by decide
theorem witness_window_refused :
    exportMemory sample 0 1 = .error .exportNotDone ∧
      exportMemory State.reset (-1) 1 = .error .exportNegativeBound := by decide
theorem witness_host_reads :
    hostResult State.reset = .ok (.good 0) ∧
      hostResult sampleFaulted = .ok (.failed { cause := .indexFault, info := 1024#28, fpc := 2 }) ∧
      hostResult sample = .error .hostDuringRun := by decide
/-- A harness may inspect `ACC` and the cells of a faulted machine of four cells (95_test_vectors.md P10). -/
theorem test_inspect_after_fault :
    inspect { State.reset with
        cfg := { Config.standard with memCells := 4 }, acc := 3, mem := [(3, 3)]
        fault := some { cause := .indexFault, info := 4#28, fpc := 2 } } =
      .ok { acc := 3, cells := [0, 0, 0, 3] } := by decide
theorem witness_run_without_fault :
    ({ sample with prog := sample.prog.take 8 } : State).pc = 0 ∧
      (finalState { sample with prog := sample.prog.take 8 }).fault = none := by decide
theorem witness_safe_program :
    ({ sample with prog := sample.prog.take 8 } : State).beforeRun ∧
      SafeProgram Config.standard (sample.prog.take 8) := by decide
theorem witness_first_fault :
    sample.beforeRun ∧ firstFault sample.cfg.memCells 0 (decodeStream sample.prog) = some (2, .indexFault 1024#28) ∧
      (finalState sample) = sampleFaulted := by decide
theorem witness_no_first_fault :
    firstFault 1024 0 (decodeStream (sample.prog.take 8)) = none := by decide
theorem witness_values :
    sample.Inv ∧ sample.ValuesFrom [7, -1] ∧ ∃ t, step sample = .next t := by
  refine ⟨sample_inv, ⟨.inr (.inr (.inl (by decide))), fun i => ?_⟩, _, rfl⟩
  by_cases h : 4 = i
  · exact .inr (.inr (.inl (by subst h; decide)))
  · exact .inl (by simp [sample, at_, Laws.read_cons, h])
theorem witness_whole_chunks_and_rest :
    sample.prog.length % 4 = 0 ∧ ([0x11#8, 0x22#8, 0x33#8] : List Byte).length < 4 := by decide
theorem witness_placed_word : decodeTableWord 32 0x0000400C = some (.ldr 1024#28) := by decide
theorem witness_text_assembles : ∃ rs, assemble ['e', 'q', ' ', '3', '0'] = .ok rs ∧ rs[0]? = some ⟨7, 30⟩ :=
  ⟨[⟨7, 30⟩], by decide, rfl⟩
theorem witness_blanks_and_comment :
    (∀ c ∈ [' ', '\t'], c = ' ' ∨ c = '\t') ∧ ∀ c ∈ ['s', 't', ' ', '5'], isNewline c = false := by
  simp [isNewline, mayEndLine]
theorem witness_written_line :
    (∀ c ∈ [' '] ++ [' ', '\t'] ++ [], c = ' ' ∨ c = '\t') ∧ [' ', '\t'] ≠ [] ∧ ([0, 9] : List (Fin 10)) ≠ [] ∧
      (['s', 't'], (11 : Int)) ∈ [(['l', 'd', 'c'], (2 : Int)), (['l', 'd', 'r'], 12), (['s', 't'], 11),
        (['e', 'q'], 7)] := by simp
theorem witness_line_of_words :
    (∀ c ∈ [' '] ++ [(['x', 'é'], ['\t', ' '])].flatMap Prod.snd ++ [], c = ' ' ∨ c = '\t') ∧
      (∀ p ∈ [(['x', 'é'], ['\t', ' '])], p.2 ≠ []) ∧
      (∀ w ∈ [(['x', 'é'], ['\t', ' '])].map Prod.fst ++ [['1']],
        w ≠ [] ∧ ∀ c ∈ w, c ≠ ' ' ∧ c ≠ '\t' ∧ c ≠ '\n' ∧ mayBeSpace c = false) ∧
      (([(['x', 'é'], ['\t', ' '])].map Prod.fst ++ [['1']]).headD []).head? ≠ some '#' := by
  simp [mayBeSpace, mayEndLine]
theorem witness_only_the_name_is_wrong :
    ['x', 'é'] ∉ [['l', 'd', 'c'], ['l', 'd', 'r'], ['s', 't'], ['e', 'q']] ∧
      ∃ (name sign : List Char) (digits : List (Fin 10)),
        [['x', 'é'], ['1']] = [name, sign ++ digits.map fun d => Char.ofNat (48 + d.val)] ∧
          sign ∈ [[], ['+'], ['-']] ∧ digits ≠ [] :=
  ⟨by simp, ['x', 'é'], [], [1], by simp, by simp, by simp⟩
theorem witness_only_the_count_is_wrong :
    ['l', 'd', 'c'] ∈ [['l', 'd', 'c'], ['l', 'd', 'r'], ['s', 't'], ['e', 'q']] ∧
      ¬ ∃ (name sign : List Char) (digits : List (Fin 10)),
        [['l', 'd', 'c']] = [name, sign ++ digits.map fun d => Char.ofNat (48 + d.val)] ∧
          sign ∈ [[], ['+'], ['-']] ∧ digits ≠ [] :=
  ⟨by simp, fun ⟨_, _, _, h, _⟩ => by simp at h⟩
theorem witness_line_between_lines :
    assemble ['e', 'q', ' ', '3'] = .ok [⟨7, 3⟩] ∧
      assemble ['e', 'q', ' ', '3', '\n', 's', 't', '\n', 'x', ' ', '1'] = .error .malformedLine := by decide
theorem witness_chunk_in_stream : 2 < instrCount sample.prog := by decide
theorem witness_bit_in_operand : (27 : Nat) < 28 := by decide

end Sys2Proof.Tests
end

