-- ==== Sys2Proof/Proofs/Memory.lean ====
section
/-! The memory family (20_memory.md): the two primitives, what a step can do to the cells, and writes that change
nothing. -/

namespace Sys2Proof.Proofs

open Sys2Proof.Machine Sys2Proof.Laws

/-! ## The primitives, forwards -/

section Primitives

variable {s : State} {m : Operand}

theorem memRead_of_outside (h : s.cfg.memCells ≤ indexOperand m) : memRead s m = .error (.indexFault m) :=
  if_pos h

theorem memWrite_of_outside (h : s.cfg.memCells ≤ indexOperand m) (v : Int) :
    memWrite s m v = .error (.indexFault m) :=
  if_pos h

theorem memRead_of_inside (h : indexOperand m < s.cfg.memCells) :
    memRead s m = .ok (s.mem.read (indexOperand m)) :=
  if_neg (Nat.not_le.mpr h)

theorem memWrite_of_inside (h : indexOperand m < s.cfg.memCells) (v : Int) :
    memWrite s m v = .ok (s.setMem (s.mem.write (indexOperand m) v)) :=
  if_neg (Nat.not_le.mpr h)

end Primitives

/-! ## Canonical memories -/

/-- The canonical form of a nonempty memory, entry by entry. -/
theorem wf_cons_iff {j : Nat} {w : Int} {rest : Memory} :
    Memory.wf ((j, w) :: rest) ↔ (∀ c ∈ rest, j < c.1) ∧ w ≠ 0 ∧ rest.wf := by
  simp only [Memory.wf, Memory.unlisted, List.pairwise_cons, List.forall_mem_cons]
  tauto

/-- Writing what a cell already holds changes nothing: the canonical form has one list for each content. -/
theorem write_read_self {mem : Memory} (hw : mem.wf) (i : Nat) : mem.write i (mem.read i) = mem := by
  induction mem with
  | nil => rfl
  | cons c rest ih =>
    obtain ⟨j, w⟩ := c
    obtain ⟨hgt, hne, hrest⟩ := wf_cons_iff.mp hw
    rcases Nat.lt_trichotomy i j with hlt | rfl | hlt
    · have hread : Memory.read ((j, w) :: rest) i = 0 := by
        refine read_eq_zero_of_not_listed (List.forall_mem_cons.mpr ⟨Nat.ne_of_gt hlt, fun c hc => ?_⟩)
        exact Nat.ne_of_gt (Nat.lt_trans hlt (hgt c hc))
      simp [Memory.write, hread, hlt, Memory.unlisted]
    · simp [Memory.write, read_cons, hne, Memory.unlisted]
    · simp [Memory.write, read_cons, Nat.not_lt_of_gt hlt, Nat.ne_of_gt hlt, Nat.ne_of_lt hlt, ih hrest]

/-- The second of two equal writes finds its value already in the cell. -/
theorem write_write_same {mem : Memory} (hw : mem.wf) (i : Nat) (v : Int) :
    (mem.write i v).write i v = mem.write i v := by
  have hself := write_read_self (write_wf hw i v) i
  rwa [read_write_same hw] at hself

/-! ## What a step can do to the memory -/

/-- An instruction leaves the memory as it is, unless it is an `st`, which writes `ACC` to its one cell. -/
theorem exec_mem_cases {i : Instr} {s t : State} (h : exec i s = .next t) :
    t.mem = s.mem ∨ ∃ m, i = .st m ∧ t.mem = s.mem.write (indexOperand m) s.acc := by
  rcases exec_next_cases h with
    ⟨m, -, rfl⟩ | ⟨m, -, -, rfl⟩ | ⟨m, hi, -, rfl⟩ | ⟨m, -, -, rfl⟩ | ⟨m, -, -, rfl⟩
  case inr.inr.inl => exact .inr ⟨m, hi, rfl⟩
  all_goals exact .inl rfl

/-- A step leaves the memory as it is, unless it runs an `st`, which writes `ACC` to its one cell. -/
theorem step_mem_cases {s t : State} (h : step s = .next t) :
    t.mem = s.mem ∨
      ∃ m, decode (fetch s.prog s.pc) = .ok (.st m) ∧ t.mem = s.mem.write (indexOperand m) s.acc := by
  obtain ⟨-, ⟨i, hd, hx⟩ | ⟨e, -, rfl⟩⟩ := step_next_cases h
  · rcases exec_mem_cases hx with hmem | ⟨m, rfl, hmem⟩
    · exact .inl hmem
    · exact .inr ⟨m, hd, hmem⟩
  · exact .inl rfl

/-- A step that is not an `st` to a cell leaves what that cell reads as. -/
theorem step_read_of_not_stored {s t : State} {i : Nat} (h : step s = .next t)
    (hi : ∀ m, decode (fetch s.prog s.pc) = .ok (.st m) → indexOperand m ≠ i) :
    t.mem.read i = s.mem.read i := by
  rcases step_mem_cases h with hmem | ⟨m, hd, hmem⟩
  · rw [hmem]
  · rw [hmem, read_write_other _ _ (hi m hd).symm]

/-! ## The obligations -/

/-- Settles O23: each primitive's test of the index decides which of its two answers it gives. -/
theorem memoryPrimitivesCheckThenAccess : Obligations.MemoryPrimitivesCheckThenAccess := by
  refine ⟨fun s m v hm => ⟨memRead_of_outside hm, memWrite_of_outside hm v⟩, fun s m v hw hm => ?_⟩
  refine ⟨memRead_of_inside hm, _, memWrite_of_inside hm v, ?_, fun k hk => ?_, rfl, rfl, rfl, rfl, rfl⟩
  · exact read_write_same hw _ v
  · exact read_write_other _ v hk

/-- Settles O24: only an `st` writes, and only its own cell; a write of what the cell holds is no change. -/
theorem readsAndRepeatedWritesHaveNoSideEffect : Obligations.ReadsAndRepeatedWritesHaveNoSideEffect :=
  ⟨fun _ _ _ h hi => step_read_of_not_stored h hi, fun _ i v hw => write_write_same hw i v⟩

end Sys2Proof.Proofs
end

