-- ==== Sys2Proof/Proofs/Encoding.lean ====
section
/-! The encoding family (30_encoding.md): words and their slices, the encoder undone by the decoder, streams of
chunks, and what the assembler emits. -/

namespace Sys2Proof.Proofs

open Sys2Proof.Machine Sys2Proof.Laws

/-! ## Words and slices -/

theorem or_reversed {w : Nat} (x y z t : BitVec w) : t ||| z ||| y ||| x = x ||| y ||| z ||| t := by ac_rfl

/-- The bytes of a word do not overlap, so side by side is shifted into place and joined by `|`. -/
theorem wordOfChunk_eq_or (c : Chunk) :
    wordOfChunk c = c.b0.setWidth 32 ||| (c.b1.setWidth 32 <<< 8) ||| (c.b2.setWidth 32 <<< 16) |||
      (c.b3.setWidth 32 <<< 24) := by
  calc wordOfChunk c
      = (c.b3 ++ c.b2 ++ c.b1 ++ c.b0).setWidth 32 := (BitVec.setWidth_eq _).symm
    _ = (c.b3.setWidth 32 <<< 24) ||| (c.b2.setWidth 32 <<< 16) ||| (c.b1.setWidth 32 <<< 8) |||
          c.b0.setWidth 32 := BitVec.setWidth_append_append_append_eq_shiftLeft_setWidth_or
    _ = _ := or_reversed _ _ _ _

/-- A slice of a word is the word shifted down and masked. -/
theorem slice_setWidth {len : Nat} (W : Word) (start : Nat) (hlen : len ≤ 32) :
    (W.extractLsb' start len).setWidth 32 = (W >>> start) &&& BitVec.ofNat 32 (2 ^ len - 1) := by
  have hmask : 2 ^ len - 1 < 2 ^ 32 :=
    Nat.lt_of_lt_of_le (Nat.pred_lt (Nat.two_pow_pos len).ne') (Nat.pow_le_pow_right (by decide) hlen)
  apply BitVec.eq_of_toNat_eq
  rw [BitVec.toNat_setWidth_of_le hlen, slice_toNat, BitVec.toNat_and, BitVec.toNat_ushiftRight,
    BitVec.toNat_ofNat, Nat.mod_eq_of_lt hmask, Nat.and_two_pow_sub_one_eq_mod, Nat.shiftRight_eq_div_pow]

/-- Cutting a word into bytes loses nothing. -/
@[simp] theorem wordOfChunk_chunkOfWord (w : Word) : wordOfChunk (chunkOfWord w) = w := by
  have hw := w.isLt
  apply BitVec.eq_of_toNat_eq
  simp only [wordOfChunk_toNat, chunkOfWord, slice_toNat]
  omega

/-- The high 28 bits of the word of a pair are its operand. -/
theorem high_bits_of_word (f : Fields) : (wordOfFields f).extractLsb' 4 28 = f.operand := by
  have ho := f.opcode.isLt
  have hm := f.operand.isLt
  apply BitVec.eq_of_toNat_eq
  rw [slice_toNat, wordOfFields_toNat]
  omega

/-- The decoder undoes the encoder on every pair. -/
@[simp] theorem decodeFields_encodeFields (f : Fields) : decodeFields (encodeFields f) = f := by
  simp [decodeFields, encodeFields, low_bits_of_word, high_bits_of_word]

/-- The decoder accepts a chunk whose opcode is in the table. -/
theorem decode_ok_of_opcode {c : Chunk} (h : (decodeFields c).opcode ∈ [2#4, 7#4, 11#4, 12#4]) :
    ∃ i, decode c = .ok i := by
  cases hd : decode c with
  | ok i => exact ⟨i, rfl⟩
  | error e => exact absurd h (decode_error hd).2

/-! ## Streams of chunks -/

@[simp] theorem chunksOf_bytes_append (c : Chunk) (rest : List Byte) :
    chunksOf (c.bytes ++ rest) = c :: chunksOf rest := rfl

@[simp] theorem fetch_bytes_append_zero (c : Chunk) (rest : List Byte) : fetch (c.bytes ++ rest) 0 = c := rfl

@[simp] theorem fetch_bytes_append_succ (c : Chunk) (rest : List Byte) (p : Nat) :
    fetch (c.bytes ++ rest) (p + 1) = fetch rest p := rfl

/-! ## The emitted stream -/

@[simp] theorem emitBinary_cons (r : RawInstr) (rs : List RawInstr) :
    emitBinary (r :: rs) = (encodeRaw r).bytes ++ emitBinary rs := rfl

theorem emitBinary_length (rs : List RawInstr) : (emitBinary rs).length = 4 * rs.length := by
  induction rs with
  | nil => rfl
  | cons r rs ih =>
    rw [emitBinary_cons, List.length_append, ih, List.length_cons]
    simp only [Chunk.bytes, List.length_cons, List.length_nil]
    omega

/-- The chunks of the emitted stream are the encodings, in order. -/
theorem chunksOf_emitBinary (rs : List RawInstr) : chunksOf (emitBinary rs) = rs.map encodeRaw := by
  induction rs with
  | nil => rfl
  | cons r rs ih => rw [emitBinary_cons, chunksOf_bytes_append, ih, List.map_cons]

/-- The machine fetches at position `p` the encoding of instruction `p`. -/
theorem fetch_emitBinary {rs : List RawInstr} {p : Nat} {r : RawInstr} (h : rs[p]? = some r) :
    fetch (emitBinary rs) p = encodeRaw r := by
  induction rs generalizing p with
  | nil => cases h
  | cons r' rs ih =>
    cases p with
    | zero =>
      obtain rfl : r' = r := by simpa using h
      exact fetch_bytes_append_zero _ _
    | succ p => exact ih (by simpa using h)

/-! ## What the assembler answers -/

/-- A pair whose masked opcode is in the table. -/
def HasTableOpcode (r : RawInstr) : Prop := (maskRaw r).opcode ∈ [2#4, 7#4, 11#4, 12#4]

/-- The bytes of such a pair decode to an instruction. -/
theorem decode_encodeRaw_ok {r : RawInstr} (h : HasTableOpcode r) : ∃ i, decode (encodeRaw r) = .ok i :=
  decode_ok_of_opcode (by rwa [encodeRaw, decodeFields_encodeFields])

/-- Every mnemonic's opcode is in the table. -/
theorem mnemonicToOpcode_ok {name : List Char} {o : Opcode} (h : mnemonicToOpcode name = .ok o) :
    o ∈ [2#4, 7#4, 11#4, 12#4] := by
  unfold mnemonicToOpcode at h
  repeat' split at h
  all_goals cases h
  all_goals decide

/-- A line that assembles gives the opcode of its mnemonic and the integer of its operand token. -/
theorem assembleLine_ok {line : List Char} {r : RawInstr} (h : assembleLine line = .ok r) :
    ∃ (o : Opcode) (n : Int), mnemonicToOpcode (mnemonicOfTokens (tokens line)) = .ok o ∧
      operandOfTokens (tokens line) = some n ∧ r = ⟨o.toNat, n⟩ := by
  unfold assembleLine at h
  split at h
  all_goals cases h
  exact ⟨_, _, ‹_›, ‹_›, rfl⟩

/-- A pair from an assembled line keeps its opcode under the encoder's mask. -/
theorem assembleLine_hasTableOpcode {line : List Char} {r : RawInstr} (h : assembleLine line = .ok r) :
    HasTableOpcode r := by
  obtain ⟨o, n, ho, -, rfl⟩ := assembleLine_ok h
  have hmask : (maskRaw ⟨o.toNat, n⟩).opcode = o := by simp [maskRaw]
  rw [HasTableOpcode, hmask]
  exact mnemonicToOpcode_ok ho

/-- What assembles from a first line and the rest: the rest alone where the line is skipped, or the line's pair
before it. -/
theorem assembleLines_cons_ok {line : List Char} {rest : List (List Char)} {rs : List RawInstr}
    (h : assembleLines (line :: rest) = .ok rs) :
    assembleLines rest = .ok rs ∨
      ∃ r rs', assembleLine line = .ok r ∧ assembleLines rest = .ok rs' ∧ rs = r :: rs' := by
  rw [assembleLines] at h
  split at h
  · exact .inl h
  · split at h
    · cases h
    · next r hr =>
      cases hrest : assembleLines rest with
      | error e => rw [hrest] at h; cases h
      | ok rs' => rw [hrest] at h; cases h; exact .inr ⟨r, rs', hr, rfl, rfl⟩

/-- The assembler makes no pair with a reserved opcode. -/
theorem assembleLines_hasTableOpcode {lines : List (List Char)} {rs : List RawInstr}
    (h : assembleLines lines = .ok rs) : ∀ r ∈ rs, HasTableOpcode r := by
  induction lines generalizing rs with
  | nil => cases h; simp
  | cons line rest ih =>
    rcases assembleLines_cons_ok h with hrest | ⟨r, rs', hr, hrest, rfl⟩
    · exact ih hrest
    · exact List.forall_mem_cons.mpr ⟨assembleLine_hasTableOpcode hr, ih hrest⟩

/-! ## The obligations -/

/-- Settles O2: the word's bytes do not overlap, and each field is a slice, so a shift and a mask. -/
theorem decoderFollowsItsFormulas : Obligations.DecoderFollowsItsFormulas := by
  intro c W
  have hW : wordOfChunk c = W := wordOfChunk_eq_or c
  refine ⟨hW, ?_, ?_⟩
  · rw [← hW, ← BitVec.ushiftRight_zero (wordOfChunk c)]
    exact slice_setWidth (wordOfChunk c) 0 (by decide)
  · rw [← hW]
    exact slice_setWidth (wordOfChunk c) 4 (by decide)

/-- Settles O4: bit `k` of a slice from bit 4 is bit `k + 4`, and at 29 bits or more the sign bit of the constant
is clear. -/
theorem operandIsTakenInPlaceUnsigned : Obligations.OperandIsTakenInPlaceUnsigned := by
  refine ⟨fun c k hk => ?_, fun w m hw => ⟨BitVec.ofInt_toInt, ?_⟩, fun _ => rfl⟩
  · simp [decodeFields, hk, Nat.add_comm]
  · have hm := m.isLt
    rw [constantOperand_eq hw]
    omega

/-- Settles O52: the chunks of the stream are the encodings in order, and the assembler takes each opcode from
the mnemonic table. -/
theorem assembledStreamIsLegal : Obligations.AssembledStreamIsLegal := by
  intro text rs h
  have hlen := emitBinary_length rs
  refine ⟨hlen, ?_, ?_, fun p r hr => fetch_emitBinary hr, ?_⟩
  · rw [instrCount, hlen]; omega
  · rw [leftover, hlen]; omega
  · intro d hd
    rw [decodeStream, chunksOf_emitBinary, List.map_map] at hd
    obtain ⟨r, hr, rfl⟩ := List.mem_map.mp hd
    exact decode_encodeRaw_ok (assembleLines_hasTableOpcode h r hr)

end Sys2Proof.Proofs
end

/-! The fetch and decode family (40_fetch_decode.md): selection by the opcode, when a step is enabled and how it moves
`PC`, and a run as the fold of the decoded stream. -/

namespace Sys2Proof.Proofs

open Sys2Proof.Machine Sys2Proof.Laws

/-! ## Selection by the opcode -/

theorem instr_opcode_mem_table (i : Instr) : i.opcode ∈ [2#4, 7#4, 11#4, 12#4] := by
  cases i <;> simp [Instr.opcode]

/-- The table lookup answers an instruction on the pair that instruction stands for. -/
@[simp] theorem dispatchFields_fields (i : Instr) : dispatchFields i.fields = .ok i := by
  cases i <;> rfl

/-- Bytes with an instruction's opcode and operand run that instruction. -/
theorem dispatch_decode_of_fields {c : Chunk} {i : Instr} (h : decodeFields c = i.fields) (s : State) :
    dispatch (decode c) s = exec i s := by
  rw [decode, h, dispatchFields_fields, dispatch]

/-- The decoder names a reserved opcode. -/
theorem decode_of_reserved {c : Chunk} (h : (decodeFields c).opcode ∉ [2#4, 7#4, 11#4, 12#4]) :
    decode c = .error (.unknownOpcode (decodeFields c).opcode) := by
  cases hd : decode c with
  | ok i =>
    rw [decode_ok hd] at h
    exact absurd (instr_opcode_mem_table i) h
  | error e => rw [(decode_error hd).1]

/-- Bytes with a reserved opcode raise `UnknownInstruction`. -/
theorem dispatch_decode_of_reserved {c : Chunk} (h : (decodeFields c).opcode ∉ [2#4, 7#4, 11#4, 12#4])
    (s : State) :
    dispatch (decode c) s = .next (s.raise (.unknownInstruction (decodeFields c).opcode)) := by
  rw [decode_of_reserved h, dispatch, raiseOfDecodeError]

/-! ## The fetch and the stream -/

/-- Inside a stream the fetch's filler byte is not used. -/
theorem getElem?_eq_some_getD {prog : List Byte} {k : Nat} (h : k < prog.length) (filler : Byte) :
    prog[k]? = some (prog.getD k filler) := by
  rw [List.getD_eq_getElem _ _ h, List.getElem?_eq_getElem h]

/-- The chunks of a stream are what the fetch reads at each position. -/
theorem chunksOf_getElem? {prog : List Byte} {p : Nat} (h : p < instrCount prog) :
    (chunksOf prog)[p]? = some (fetch prog p) := by
  induction prog using chunksOf.induct generalizing p with
  | case1 b0 b1 b2 b3 rest ih =>
    cases p with
    | zero => rfl
    | succ p =>
      have hp : p < instrCount rest := by
        simp only [instrCount, List.length_cons] at h ⊢
        omega
      exact ih hp
  | case2 short hshort =>
    have hnone : chunksOf short = [] := by rw [chunksOf]; exact hshort
    rw [instrCount, ← chunksOf_length, hnone] at h
    exact absurd h (Nat.not_lt_zero p)

theorem decodeStream_length (prog : List Byte) : (decodeStream prog).length = instrCount prog := by
  rw [decodeStream, List.length_map, chunksOf_length, instrCount]

/-- From a position inside the stream on, the decoded stream begins with what is fetched there. -/
theorem decodeStream_drop {prog : List Byte} {p : Nat} (h : p < instrCount prog) :
    (decodeStream prog).drop p = decode (fetch prog p) :: (decodeStream prog).drop (p + 1) := by
  have hp : p < (decodeStream prog).length := by rwa [decodeStream_length]
  have hd : (decodeStream prog)[p]? = some (decode (fetch prog p)) := by
    rw [decodeStream, List.getElem?_map, chunksOf_getElem? h, Option.map_some]
  rw [List.drop_eq_getElem_cons hp, Option.some.inj ((List.getElem?_eq_getElem hp).symm.trans hd)]

/-! ## One step -/

theorem step_enabled_iff (s : State) : (∃ t, step s = .next t) ↔ s.isRunning := by
  refine ⟨fun ⟨_, h⟩ => running_of_step h, fun h => ?_⟩
  rw [step_of_running h]
  exact dispatch_total _ s

/-- An instruction completes, with `PC` one higher and `FAULT` as it was, or takes an index fault. -/
theorem exec_completes_or_raises {i : Instr} {s t : State} (h : exec i s = .next t) :
    (t.fault = s.fault ∧ t.pc = s.pc + 1 ∧ SameLaunch s t) ∨ ∃ m, t = s.raise (.indexFault m) := by
  rcases exec_next_cases h with
    ⟨m, -, rfl⟩ | ⟨m, -, -, rfl⟩ | ⟨m, -, -, rfl⟩ | ⟨m, -, -, rfl⟩ | ⟨m, -, -, rfl⟩
  case inr.inr.inr.inr => exact .inr ⟨m, rfl⟩
  all_goals exact .inl ⟨rfl, rfl, rfl, rfl⟩

/-- A step completes, with `PC` one higher and no fault, or takes one of the two faults a step can raise. -/
theorem step_completes_or_raises {s t : State} (h : step s = .next t) :
    (t.fault = none ∧ t.pc = s.pc + 1 ∧ SameLaunch s t) ∨ (∃ m, t = s.raise (.indexFault m)) ∨
      ((decodeFields (fetch s.prog s.pc)).opcode ∉ [2#4, 7#4, 11#4, 12#4] ∧
        t = s.raise (.unknownInstruction (decodeFields (fetch s.prog s.pc)).opcode)) := by
  obtain ⟨hr, ⟨i, -, hx⟩ | ⟨e, hd, rfl⟩⟩ := step_next_cases h
  · rcases exec_completes_or_raises hx with ⟨hf, hpc, hl⟩ | hm
    · exact .inl ⟨hf.trans hr.1, hpc, hl⟩
    · exact .inr (.inl hm)
  · obtain ⟨rfl, ho⟩ := decode_error hd
    exact .inr (.inr ⟨ho, rfl⟩)

/-- A step adds 1 to `PC` and raises nothing, or sets `FAULT` and leaves `PC`. -/
theorem step_pc_cases {s t : State} (h : step s = .next t) :
    (t.fault = none ∧ t.pc = s.pc + 1) ∨ (t.fault ≠ none ∧ t.pc = s.pc) := by
  rcases step_completes_or_raises h with ⟨hf, hpc, -⟩ | ⟨m, rfl⟩ | ⟨-, rfl⟩
  · exact .inl ⟨hf, hpc⟩
  · exact .inr ⟨Option.some_ne_none _, rfl⟩
  · exact .inr ⟨Option.some_ne_none _, rfl⟩

theorem step_sameLaunch {s t : State} (h : step s = .next t) : SameLaunch s t := by
  rcases step_completes_or_raises h with ⟨-, -, hl⟩ | ⟨m, rfl⟩ | ⟨-, rfl⟩
  · exact hl
  · exact ⟨rfl, rfl⟩
  · exact ⟨rfl, rfl⟩

/-! ## Several steps -/

theorem not_running_of_fault {s : State} (h : s.fault ≠ none) : ¬ s.isRunning := fun hr => h hr.1

theorem runSteps_succ_of_step {s t : State} (h : step s = .next t) (k : Nat) :
    runSteps (k + 1) s = runSteps k t := by
  rw [runSteps, h]

/-- Stepping does not leave a state in which no step is enabled. -/
theorem runSteps_of_not_running {s : State} (h : ¬ s.isRunning) (k : Nat) : runSteps k s = s := by
  cases k with
  | zero => rfl
  | succ k =>
    cases hs : step s with
    | next t => exact absurd (running_of_step hs) h
    | fault r => rw [runSteps, hs]
    | refused r => rw [runSteps, hs]

theorem runSteps_sameLaunch (k : Nat) (s : State) : SameLaunch s (runSteps k s) := by
  induction k generalizing s with
  | zero => exact ⟨rfl, rfl⟩
  | succ k ih =>
    by_cases hr : s.isRunning
    · obtain ⟨t, ht⟩ := (step_enabled_iff s).mpr hr
      obtain ⟨hcfg, hprog⟩ := step_sameLaunch ht
      obtain ⟨hcfg', hprog'⟩ := ih t
      rw [runSteps_succ_of_step ht]
      exact ⟨hcfg'.trans hcfg, hprog'.trans hprog⟩
    · rw [runSteps_of_not_running hr]
      exact ⟨rfl, rfl⟩

/-- Each of the first `k` steps from `s` is enabled. -/
def EnabledSteps (k : Nat) (s : State) : Prop := ∀ j, j < k → (runSteps j s).isRunning

theorem enabledSteps_zero (s : State) : EnabledSteps 0 s := fun _ hj => absurd hj (Nat.not_lt_zero _)

theorem enabledSteps_succ_iff {s t : State} (h : step s = .next t) (k : Nat) :
    EnabledSteps (k + 1) s ↔ EnabledSteps k t := by
  refine ⟨fun hs j hj => ?_, fun ht j hj => ?_⟩
  · rw [← runSteps_succ_of_step h]
    exact hs (j + 1) (Nat.succ_lt_succ hj)
  · cases j with
    | zero => exact running_of_step h
    | succ j =>
      rw [runSteps_succ_of_step h]
      exact ht j (Nat.lt_of_succ_lt_succ hj)

/-- At most `n` steps are some number of enabled steps: `n` of them, or fewer after which none is enabled. -/
theorem runSteps_eq_enabledSteps (n : Nat) (s : State) :
    ∃ k, k ≤ n ∧ runSteps n s = runSteps k s ∧ EnabledSteps k s ∧
      (k = n ∨ ¬ (runSteps k s).isRunning) := by
  induction n generalizing s with
  | zero => exact ⟨0, le_rfl, rfl, enabledSteps_zero s, .inl rfl⟩
  | succ n ih =>
    by_cases hr : s.isRunning
    · obtain ⟨t, ht⟩ := (step_enabled_iff s).mpr hr
      obtain ⟨k, hk, heq, hen, hend⟩ := ih t
      refine ⟨k + 1, Nat.succ_le_succ hk, ?_, (enabledSteps_succ_iff ht k).mpr hen, ?_⟩
      · rw [runSteps_succ_of_step ht, runSteps_succ_of_step ht, heq]
      · rw [runSteps_succ_of_step ht]
        exact hend.imp_left (congrArg (· + 1))
    · exact ⟨0, Nat.zero_le _, runSteps_of_not_running hr _, enabledSteps_zero s, .inr hr⟩

/-- `k` enabled steps without a fault add `k` to `PC`. -/
theorem pc_of_enabledSteps {k : Nat} {s : State} (hen : EnabledSteps k s)
    (hf : (runSteps k s).fault = none) : (runSteps k s).pc = s.pc + k := by
  induction k generalizing s with
  | zero => rfl
  | succ k ih =>
    obtain ⟨t, ht⟩ := (step_enabled_iff s).mpr (hen 0 (Nat.succ_pos k))
    rw [runSteps_succ_of_step ht] at hf ⊢
    rcases step_pc_cases ht with ⟨-, hpc⟩ | ⟨hfault, -⟩
    · rw [ih ((enabledSteps_succ_iff ht k).mp hen) hf, hpc]
      omega
    · rw [runSteps_of_not_running (not_running_of_fault hfault)] at hf
      exact absurd hf hfault

/-! ## The run as a fold -/

theorem foldInstr_of_fault {s : State} (h : s.fault ≠ none) (d : Except DecodeError Instr) :
    foldInstr s d = s :=
  if_neg h

/-- After a fault the fold changes nothing. -/
theorem foldl_foldInstr_of_fault {s : State} (h : s.fault ≠ none) (ds : List (Except DecodeError Instr)) :
    ds.foldl foldInstr s = s := by
  induction ds with
  | nil => rfl
  | cons d ds ih => rw [List.foldl_cons, foldInstr_of_fault h, ih]

/-- The fold transforms the state by what is decoded at `PC` as a step does. -/
theorem foldInstr_of_step {s t : State} (h : step s = .next t) :
    foldInstr s (decode (fetch s.prog s.pc)) = t := by
  have hr := running_of_step h
  rw [step_of_running hr] at h
  rw [foldInstr, if_pos hr.1, h]

/-- The steps from `PC` to the end of the stream are the fold over the rest of the decoded stream. -/
theorem runSteps_eq_foldl {n : Nat} {s : State} (h : s.pc + n = instrCount s.prog) :
    runSteps n s = ((decodeStream s.prog).drop s.pc).foldl foldInstr s := by
  induction n generalizing s with
  | zero =>
    have hend : (decodeStream s.prog).length ≤ s.pc := by rw [decodeStream_length]; omega
    rw [List.drop_eq_nil_of_le hend]
    rfl
  | succ n ih =>
    by_cases hf : s.fault = none
    · have hpc : s.pc < instrCount s.prog := by omega
      obtain ⟨t, ht⟩ := (step_enabled_iff s).mpr ⟨hf, hpc⟩
      obtain ⟨-, hprog⟩ := step_sameLaunch ht
      rw [runSteps_succ_of_step ht, decodeStream_drop hpc, List.foldl_cons, foldInstr_of_step ht]
      rcases step_pc_cases ht with ⟨-, hnext⟩ | ⟨hfault, -⟩
      · have hrest : t.pc + n = instrCount t.prog := by rw [hnext, hprog]; omega
        rw [ih hrest, hnext, hprog]
      · rw [runSteps_of_not_running (not_running_of_fault hfault), foldl_foldInstr_of_fault hfault]
    · rw [runSteps_of_not_running (not_running_of_fault hf), foldl_foldInstr_of_fault hf]

theorem finalState_eq_foldProgram {s : State} (h : s.pc = 0) : finalState s = foldProgram s := by
  have hall : s.pc + instrCount s.prog = instrCount s.prog := by rw [h, Nat.zero_add]
  rw [finalState, runSteps_eq_foldl hall, h, List.drop_zero, foldProgram]

/-- A run from `PC` 0 ends after at most `N` steps, each enabled, where no further step is. -/
theorem finalState_ends {s : State} (h : s.pc = 0) :
    ¬ (finalState s).isRunning ∧
      ∃ k, k ≤ instrCount s.prog ∧ finalState s = runSteps k s ∧ EnabledSteps k s := by
  obtain ⟨k, hk, heq, hen, hend⟩ := runSteps_eq_enabledSteps (instrCount s.prog) s
  refine ⟨fun hr => ?_, k, hk, heq, hen⟩
  rw [finalState, heq] at hr
  rcases hend with rfl | hstop
  · obtain ⟨hf, hlt⟩ := hr
    rw [pc_of_enabledSteps hen hf, (runSteps_sameLaunch _ s).2, h] at hlt
    omega
  · exact hstop hr

/-- A run from `PC` 0 with no fault ends at `N` after exactly `N` enabled steps. -/
theorem finalState_of_no_fault {s : State} (h : s.pc = 0) (hf : (finalState s).fault = none) :
    (finalState s).pc = instrCount s.prog ∧ EnabledSteps (instrCount s.prog) s := by
  obtain ⟨hstop, k, hk, heq, hen⟩ := finalState_ends h
  have hpc : (finalState s).pc = k := by
    rw [heq] at hf ⊢
    rw [pc_of_enabledSteps hen hf, h, Nat.zero_add]
  have hge : ¬ (finalState s).pc < instrCount (finalState s).prog := fun hlt => hstop ⟨hf, hlt⟩
  have hprog : (finalState s).prog = s.prog := (runSteps_sameLaunch _ s).2
  rw [hprog] at hge
  obtain rfl : k = instrCount s.prog := by omega
  exact ⟨hpc, hen⟩

/-! ## The obligations -/

/-- Settles O13: each opcode of the table stands for one instruction, and the decoder names every other. -/
theorem dispatchSelectsByOpcodeAlone : Obligations.DispatchSelectsByOpcodeAlone := by
  intro c s
  have hfields : ∀ i : Instr, i.operand = (decodeFields c).operand → (decodeFields c).opcode = i.opcode →
      dispatch (decode c) s = exec i s := fun i hm ho =>
    dispatch_decode_of_fields (by rw [Instr.fields, ← ho, hm]) s
  exact ⟨hfields (.ldc _) rfl, hfields (.ldr _) rfl, hfields (.st _) rfl, hfields (.eq _) rfl,
    fun h => dispatch_decode_of_reserved h s⟩

/-- Settles O10: in RUNNING `step` dispatches, which always answers a next state, and elsewhere it stops. -/
theorem stepEnabledExactlyWhenRunning : Obligations.StepEnabledExactlyWhenRunning :=
  ⟨step_enabled_iff, fun _ h => step_of_running h, fun _ k h => runSteps_of_not_running h k⟩

/-- Settles O11: `PC` below `N` puts the whole chunk below the stream's length. -/
theorem fetchReadsTheChunkAtPc : Obligations.FetchReadsTheChunkAtPc := by
  rintro s ⟨-, hpc⟩
  have hlen : 4 * s.pc + 3 < s.prog.length := by
    rw [instrCount] at hpc
    omega
  exact ⟨hlen, getElem?_eq_some_getD (by omega) _, getElem?_eq_some_getD (by omega) _,
    getElem?_eq_some_getD (by omega) _, getElem?_eq_some_getD hlen _⟩

/-- Settles O14, from the two ways a step can end. -/
theorem pcAdvancesByOneOrStays : Obligations.PcAdvancesByOneOrStays :=
  fun _ _ h => step_pc_cases h

/-- Settles O28: a reserved opcode is dispatched to `State.raise`, and of the ways a step can end only that one
records `UnknownInstruction`. -/
theorem unknownOpcodeFaultsWhenReached : Obligations.UnknownOpcodeFaultsWhenReached := by
  refine ⟨fun s hr ho => ?_, fun s t r h hf hcause => ?_⟩
  · refine ⟨s.raise (.unknownInstruction (decodeFields (fetch s.prog s.pc)).opcode), ?_, rfl, rfl, rfl, rfl,
      ⟨rfl, rfl⟩, fun _ => rfl, fun k => ?_⟩
    · rw [step_of_running hr, dispatch_decode_of_reserved ho]
    · exact runSteps_of_not_running (not_running_of_fault (Option.some_ne_none _)) k
  · rcases step_completes_or_raises h with ⟨hnone, -, -⟩ | ⟨m, rfl⟩ | ⟨ho, -⟩
    · rw [hnone] at hf
      cases hf
    · cases hf
      cases hcause
    · exact ho

/-- Settles O41: the fold by induction on the steps left; the end of the run from the number of enabled steps, which
is what `PC` has grown by when there was no fault. -/
theorem runIsTheFoldAndEndsWithinNSteps : Obligations.RunIsTheFoldAndEndsWithinNSteps := by
  intro s h
  obtain ⟨hstop, hk⟩ := finalState_ends h
  refine ⟨finalState_eq_foldProgram h, hstop, hk, fun hf => ?_⟩
  obtain ⟨hpc, hen⟩ := finalState_of_no_fault h hf
  refine ⟨hpc, fun j hj => ?_⟩
  have hjf : (runSteps j s).fault = none := by
    rcases Nat.lt_or_eq_of_le hj with hlt | rfl
    · exact (hen j hlt).1
    · exact hf
  have henj : EnabledSteps j s := fun i hi => hen i (Nat.lt_of_lt_of_le hi hj)
  exact ⟨by rw [pc_of_enabledSteps henj hjf, h, Nat.zero_add], hjf⟩

end Sys2Proof.Proofs

/-! The load family (41_load.md): the word of an instruction, what `ldc` and `ldr` answer, and the index fault that the
three instructions with a cell share. -/

namespace Sys2Proof.Proofs

open Sys2Proof.Machine Sys2Proof.Laws

/-! ## Words of instructions -/

/-- The opcode fills the low four bits of the word, so the operand shifted past them is joined by `|`. -/
theorem wordOfChunk_encode (i : Instr) :
    wordOfChunk (encode i) = i.opcode.setWidth 32 ||| (i.operand.setWidth 32 <<< 4) := by
  calc wordOfChunk (encode i)
      = i.operand ++ i.opcode := wordOfChunk_chunkOfWord _
    _ = (i.operand ++ i.opcode).setWidth 32 := (BitVec.setWidth_eq _).symm
    _ = (i.operand.setWidth 32 <<< 4) ||| i.opcode.setWidth 32 :=
          BitVec.setWidth_append_eq_shiftLeft_setWidth_or
    _ = _ := BitVec.or_comm _ _

/-- Integers that mask to an instruction's pair are encoded as that instruction. -/
theorem encodeRaw_eq_encode {r : RawInstr} {i : Instr} (h : maskRaw r = i.fields) : encodeRaw r = encode i :=
  congrArg encodeFields h

/-! ## What the instructions answer, forwards -/

/-- `ldc` completes from every state. -/
theorem exec_ldc (m : Operand) (s : State) :
    exec (.ldc m) s = .next (s.setAcc (constantOperand s.cfg.cellBits m)).advance := rfl

/-- `ldr` of a cell that exists completes. -/
theorem exec_ldr_of_inside {s : State} {m : Operand} (h : indexOperand m < s.cfg.memCells) :
    exec (.ldr m) s = .next (s.setAcc (s.mem.read (indexOperand m))).advance := by
  rw [exec, execLdr, memRead_of_inside h, Except.map, finish]

/-- An instruction whose cell does not exist takes the index fault. -/
theorem exec_of_outside {i : Instr} {s : State} {m : Operand} (hi : i = .ldr m ∨ i = .st m ∨ i = .eq m)
    (h : s.cfg.memCells ≤ indexOperand m) : exec i s = .next (s.raise (.indexFault m)) := by
  rcases hi with rfl | rfl | rfl
  · rw [exec, execLdr, memRead_of_outside h, Except.map, finish]
  · rw [exec, execSt, memWrite_of_outside h, finish]
  · rw [exec, execEq, memRead_of_outside h, Except.map, finish]

/-! ## The obligations -/

/-- Settles O18: `ldc` has no check to fail, and at 29 bits or more its constant is the unsigned operand. The two
integers outside 28 bits mask to 2^28 - 1 and to 0. -/
theorem ldcLoadsItsConstant : Obligations.LdcLoadsItsConstant := by
  refine ⟨fun m s hw => ?_, fun m => wordOfChunk_encode (.ldc m), encodeRaw_eq_encode (by decide),
    encodeRaw_eq_encode (by decide)⟩
  exact ⟨_, exec_ldc m s, constantOperand_eq hw m, rfl, rfl, ⟨rfl, rfl⟩, fun _ => rfl⟩

/-- Settles O19: the bounds check decides between the load and the fault, and each of the two writes only its own
fields. -/
theorem ldrLoadsTheCell : Obligations.LdrLoadsTheCell := by
  refine ⟨fun m s hm => ?_, fun m s hm => ?_, fun m => wordOfChunk_encode (.ldr m)⟩
  · exact ⟨_, exec_ldr_of_inside hm, rfl, rfl, rfl, ⟨rfl, rfl⟩, fun _ => rfl⟩
  · exact ⟨_, exec_of_outside (.inl rfl) hm, rfl, rfl, rfl, rfl, ⟨rfl, rfl⟩, fun _ => rfl⟩

end Sys2Proof.Proofs

/-! The store family (42_store.md): what `st` answers for a cell that exists. The index fault and the word are those of
the load family. -/

namespace Sys2Proof.Proofs

open Sys2Proof.Machine Sys2Proof.Laws

/-- `st` to a cell that exists completes. -/
theorem exec_st_of_inside {s : State} {m : Operand} (h : indexOperand m < s.cfg.memCells) :
    exec (.st m) s = .next (s.setMem (s.mem.write (indexOperand m) s.acc)).advance := by
  rw [exec, execSt, memWrite_of_inside h, finish]

/-- Settles O20: the bounds check decides between the one write and the fault. The canonical form is what lets the
written cell read back a 0. -/
theorem stStoresTheAccumulator : Obligations.StStoresTheAccumulator := by
  refine ⟨fun m s hw hm => ?_, fun m s hm => ?_, fun m => wordOfChunk_encode (.st m)⟩
  · exact ⟨_, exec_st_of_inside hm, read_write_same hw _ _, fun _ hk => read_write_other _ _ hk,
      rfl, rfl, rfl, ⟨rfl, rfl⟩⟩
  · exact ⟨_, exec_of_outside (.inr (.inl rfl)) hm, rfl, rfl, rfl, rfl, ⟨rfl, rfl⟩, fun _ => rfl⟩

end Sys2Proof.Proofs

/-! The equality family (43_equality.md): the two results of the comparison, and what `eq` answers for a cell that
exists. The index fault and the word are those of the load family. -/

namespace Sys2Proof.Proofs

open Sys2Proof.Machine Sys2Proof.Laws

theorem equalityResult_of_eq {a b : Int} (h : a = b) : equalityResult a b = 1 := if_pos h

theorem equalityResult_of_ne {a b : Int} (h : a ≠ b) : equalityResult a b = 0 := if_neg h

/-- `eq` with a cell that exists completes, with the comparison in `ACC`. -/
theorem exec_eq_of_inside {s : State} {m : Operand} (h : indexOperand m < s.cfg.memCells) :
    exec (.eq m) s = .next (s.setAcc (equalityResult s.acc (s.mem.read (indexOperand m)))).advance := by
  rw [exec, execEq, memRead_of_inside h, Except.map, finish]

/-- Settles O21: the bounds check decides between the comparison, which writes `ACC` alone, and the fault. -/
theorem eqComparesWithTheCell : Obligations.EqComparesWithTheCell := by
  refine ⟨fun m s hm => ?_, fun m s hm => ?_, fun m => wordOfChunk_encode (.eq m)⟩
  · exact ⟨_, exec_eq_of_inside hm, equalityResult_of_eq, equalityResult_of_ne, rfl, rfl, ⟨rfl, rfl⟩, fun _ => rfl⟩
  · exact ⟨_, exec_of_outside (.inr (.inr rfl)) hm, rfl, rfl, rfl, rfl, ⟨rfl, rfl⟩, fun _ => rfl⟩

end Sys2Proof.Proofs

/-! The exceptions family (60_exceptions.md): no step leaves a fault, and what reset clears. -/

namespace Sys2Proof.Proofs

open Sys2Proof.Machine Sys2Proof.Laws

/-- Settles O31: a step needs RUNNING, which a recorded fault excludes, and reset lists no cell, so each reads 0. -/
theorem onlyResetLeavesAFault : Obligations.OnlyResetLeavesAFault := by
  intro s hf
  have hstopped : ¬ s.isRunning := not_running_of_fault hf
  refine ⟨fun t ht => hstopped (running_of_step ht), runSteps_of_not_running hstopped,
    applyReset_fault s, applyReset_acc s, applyReset_pc s, fun i => ?_⟩
  rw [applyReset_mem, read_nil]

end Sys2Proof.Proofs

/-! The round trips between words, pairs and bytes (30_encoding.md sections 1 to 3): the encoder undone by the decoder
on pairs, the decoder undone by the encoder on bytes, and what the decoder answers on every input. -/

namespace Sys2Proof.Proofs

open Sys2Proof.Machine Sys2Proof.Laws

/-! ## A chunk is the encoding of what is read from it -/

theorem chunkOfWord_wordOfChunk (c : Chunk) : chunkOfWord (wordOfChunk c) = c := by
  obtain ⟨b0, b1, b2, b3⟩ := c
  have h0 := b0.isLt
  have h1 := b1.isLt
  have h2 := b2.isLt
  have h3 := b3.isLt
  simp only [chunkOfWord, Chunk.mk.injEq]
  refine ⟨?_, ?_, ?_, ?_⟩ <;> apply BitVec.eq_of_toNat_eq <;>
    simp only [slice_toNat, wordOfChunk_toNat] <;> omega

/-- The two fields cover the word. -/
theorem wordOfFields_decodeFields (c : Chunk) : wordOfFields (decodeFields c) = wordOfChunk c := by
  have hw := (wordOfChunk c).isLt
  apply BitVec.eq_of_toNat_eq
  simp only [wordOfFields_toNat, decodeFields, slice_toNat]
  omega

/-- The encoder undoes the decoder on every four bytes. -/
theorem encodeFields_decodeFields (c : Chunk) : encodeFields (decodeFields c) = c := by
  rw [encodeFields, wordOfFields_decodeFields, chunkOfWord_wordOfChunk]

/-- Four bytes have an instruction's opcode and operand exactly when they are its encoding. -/
theorem decodeFields_eq_fields_iff (c : Chunk) (i : Instr) : decodeFields c = i.fields ↔ c = encode i := by
  constructor
  · intro h
    rw [encode, ← h, encodeFields_decodeFields]
  · rintro rfl
    exact decodeFields_encodeFields _

theorem decode_eq_ok_iff (c : Chunk) (i : Instr) : decode c = .ok i ↔ decodeFields c = i.fields :=
  ⟨decode_ok, fun h => by rw [decode, h, dispatchFields_fields]⟩

/-- The low bits of an integer, as its residue. -/
theorem toNat_ofInt_eq_emod (w : Nat) (n : Int) : ((BitVec.ofInt w n).toNat : Int) = n % 2 ^ w := by
  have hpos : (0 : Int) < 2 ^ w := by positivity
  rw [BitVec.toNat_ofInt, Nat.cast_pow, Nat.cast_ofNat, Int.toNat_of_nonneg (Int.emod_nonneg _ hpos.ne')]

theorem operand_eq_bytes (c : Chunk) :
    (decodeFields c).operand = c.b3 ++ c.b2 ++ c.b1 ++ c.b0.extractLsb' 4 4 := by
  have h0 := c.b0.isLt
  have h1 := c.b1.isLt
  have h2 := c.b2.isLt
  have h3 := c.b3.isLt
  apply BitVec.eq_of_toNat_eq
  simp only [decodeFields, slice_toNat, append_toNat, wordOfChunk_toNat]
  omega

theorem opcode_eq_low_nibble (c : Chunk) : (decodeFields c).opcode = c.b0.extractLsb' 0 4 := by
  apply BitVec.eq_of_toNat_eq
  simp only [decodeFields, slice_toNat, wordOfChunk_toNat]
  omega

theorem decodeBytes_short {bytes : List Byte} (h : bytes.length < 4) :
    decodeBytes bytes = .error (.malformedInput bytes.length) := by
  match bytes, h with
  | [], _ => rfl
  | [_], _ => rfl
  | [_, _], _ => rfl
  | [_, _, _], _ => rfl

theorem decode_ok_iff_table (c : Chunk) :
    (∃ i, decode c = .ok i) ↔ (decodeFields c).opcode ∈ [2#4, 7#4, 11#4, 12#4] := by
  refine ⟨fun ⟨i, hi⟩ => ?_, decode_ok_of_opcode⟩
  rw [decode_ok hi]
  exact instr_opcode_mem_table i

/-! ## The obligations -/

/-- Settles O7: to decode to an instruction is to have its fields, and the encoder and the decoder undo each other on
pairs and on bytes. -/
theorem decodeEncodeAgree : Obligations.DecodeEncodeAgree := fun i c _ =>
  (decode_eq_ok_iff c i).trans (decodeFields_eq_fields_iff c i)

/-- Settles O3: each slice of the little-endian word against the same slice of its bytes, as numbers. -/
theorem fieldsSitInTheirBytes : Obligations.FieldsSitInTheirBytes := fun c =>
  ⟨opcode_eq_low_nibble c, operand_eq_bytes c⟩

/-- Settles O5, case by case on the input's length and on the opcode. -/
theorem decoderFailsOnlyOnShortInput : Obligations.DecoderFailsOnlyOnShortInput :=
  ⟨fun _ _ _ _ _ => rfl, fun _ h => decodeBytes_short h, decode_ok_iff_table, fun _ h => decode_of_reserved h⟩

/-- Settles O6: the two directions on pairs and on bytes, and the mask as a residue. -/
theorem pairsAndBytesRoundTrip : Obligations.PairsAndBytesRoundTrip := by
  refine ⟨decodeFields_encodeFields, encodeFields_decodeFields, fun r => ?_⟩
  rw [encodeRaw, decodeFields_encodeFields]
  exact ⟨toNat_ofInt_eq_emod 4 _, toNat_ofInt_eq_emod 28 _⟩

/-- Settles O8: the word of the masked pair is its sum, and a chunk's bytes are the slices of its word. -/
theorem encoderMasksAndPacks : Obligations.EncoderMasksAndPacks := by
  intro r
  have hword : wordOfChunk (encodeRaw r) = wordOfFields (maskRaw r) := wordOfChunk_chunkOfWord _
  rw [hword]
  refine ⟨?_, rfl, rfl, rfl, rfl⟩
  have hopcode := toNat_ofInt_eq_emod 4 r.opcode
  have hoperand := toNat_ofInt_eq_emod 28 r.operand
  rw [wordOfFields_toNat, maskRaw]
  push_cast
  omega

/-- Settles O1: the five closed words, evaluated. -/
theorem writtenOutWordsDecode : Obligations.WrittenOutWordsDecode := by
  refine ⟨?_, ?_, ?_, ?_, ?_⟩ <;> decide

end Sys2Proof.Proofs

/-! The step (40_fetch_decode.md, 60_exceptions.md): what it can do to `ACC`, the two ways it faults, the four joined
blocks against it, and a chunk placed where it fetches. -/

namespace Sys2Proof.Proofs

open Sys2Proof.Machine Sys2Proof.Laws

/-! ## What a step can do to `ACC`, and the two ways it faults -/

/-- An instruction leaves `ACC` as it is, unless it is an `ldc`, an `ldr` or an `eq`. -/
theorem exec_acc_cases {i : Instr} {s t : State} (h : exec i s = .next t) :
    t.acc = s.acc ∨ ∃ m, i = .ldc m ∨ i = .ldr m ∨ i = .eq m := by
  rcases exec_next_cases h with
    ⟨m, hi, -⟩ | ⟨m, hi, -, -⟩ | ⟨m, -, -, rfl⟩ | ⟨m, hi, -, -⟩ | ⟨m, -, -, rfl⟩
  · exact .inr ⟨m, .inl hi⟩
  · exact .inr ⟨m, .inr (.inl hi)⟩
  · exact .inl rfl
  · exact .inr ⟨m, .inr (.inr hi)⟩
  · exact .inl rfl

theorem step_acc_cases {s t : State} (h : step s = .next t) :
    t.acc = s.acc ∨
      ∃ m, decode (fetch s.prog s.pc) = .ok (.ldc m) ∨ decode (fetch s.prog s.pc) = .ok (.ldr m) ∨
        decode (fetch s.prog s.pc) = .ok (.eq m) := by
  obtain ⟨-, ⟨i, hd, hx⟩ | ⟨e, -, rfl⟩⟩ := step_next_cases h
  · rw [hd]
    refine (exec_acc_cases hx).imp_right fun ⟨m, hm⟩ => ⟨m, ?_⟩
    simpa only [Except.ok.injEq] using hm
  · exact .inl rfl

/-- A step with a fault raised it, for an index outside the memory or for a reserved opcode at `PC`. -/
theorem step_fault_cases {s t : State} (h : step s = .next t) (hf : t.fault ≠ none) :
    (∃ i m, decode (fetch s.prog s.pc) = .ok i ∧ (i = .ldr m ∨ i = .st m ∨ i = .eq m) ∧
        s.cfg.memCells ≤ indexOperand m ∧ t = s.raise (.indexFault m)) ∨
      ((decodeFields (fetch s.prog s.pc)).opcode ∉ [2#4, 7#4, 11#4, 12#4] ∧
        t = s.raise (.unknownInstruction (decodeFields (fetch s.prog s.pc)).opcode)) := by
  obtain ⟨hr, ⟨i, hd, hx⟩ | ⟨e, hd, rfl⟩⟩ := step_next_cases h
  · rcases exec_next_cases hx with
      ⟨m, -, rfl⟩ | ⟨m, -, -, rfl⟩ | ⟨m, -, -, rfl⟩ | ⟨m, -, -, rfl⟩ | ⟨m, hi, hm, rfl⟩
    case inr.inr.inr.inr => exact .inl ⟨i, m, hd, hi, hm, rfl⟩
    all_goals exact absurd hr.1 hf
  · obtain ⟨rfl, ho⟩ := decode_error hd
    exact .inr ⟨ho, rfl⟩

/-- The pair of an instruction with a cell: its operand is the index, its opcode one of three. -/
theorem fields_of_cell_instr {i : Instr} {m : Operand} (hi : i = .ldr m ∨ i = .st m ∨ i = .eq m) :
    i.fields.operand = m ∧ i.fields.opcode ∈ [7#4, 11#4, 12#4] := by
  rcases hi with rfl | rfl | rfl <;> simp [Instr.fields, Instr.operand, Instr.opcode]

/-- What an enabled step does with bytes that decode to an instruction. -/
theorem step_of_decode_ok {s : State} {i : Instr} (hr : s.isRunning)
    (hd : decode (fetch s.prog s.pc) = .ok i) : step s = exec i s := by
  rw [step_of_running hr, hd, dispatch]

/-! ## The blocks -/

/-- The blocks on the fields of a chunk with a reserved opcode write the fault. -/
theorem blockStep_of_reserved {s : State} (h : (decodeFields (fetch s.prog s.pc)).opcode ∉ [2#4, 7#4, 11#4, 12#4]) :
    blockStep s = s.raise (.unknownInstruction (decodeFields (fetch s.prog s.pc)).opcode) := by
  have hunknown : ∀ m d a, (alu s.cfg.cellBits (decodeFields (fetch s.prog s.pc)).opcode m d a).unknown = true := by
    simp_all [alu]
  simp only [blockStep, faultLine, hunknown, if_true]
  rfl

theorem datapath_of_inside {n : Nat} {m : Operand} (h : indexOperand m < n) (mem : Memory) (a : Int)
    (we re : Bool) :
    datapath n mem { index := m, wdata := a, we := we, re := re } =
      { rdata := mem.read (indexOperand m), oob := false
        mem := if we then mem.write (indexOperand m) a else mem } := by
  rw [indexOperand] at h
  simp [datapath, indexOperand, h]

theorem datapath_of_outside {n : Nat} {m : Operand} (h : n ≤ indexOperand m) (mem : Memory) (a : Int)
    (we re : Bool) :
    datapath n mem { index := m, wdata := a, we := we, re := re } =
      { rdata := mem.read (indexOperand m), oob := re || we, mem := mem } := by
  rw [indexOperand] at h
  simp [datapath, indexOperand, h]

/-- On the fields of an instruction whose cell does not exist the joined blocks write the fault. -/
theorem blockStep_of_outside {s : State} {i : Instr} {m : Operand}
    (hf : decodeFields (fetch s.prog s.pc) = i.fields) (hi : i = .ldr m ∨ i = .st m ∨ i = .eq m)
    (h : s.cfg.memCells ≤ indexOperand m) : blockStep s = s.raise (.indexFault m) := by
  rcases hi with rfl | rfl | rfl <;>
    · simp only [blockStep, hf, Instr.fields, Instr.operand, datapath_of_outside h]
      rfl

/-- On the fields of an instruction whose cell exists the joined blocks do what the instruction does. -/
theorem exec_eq_blockStep_of_inside {s : State} {i : Instr} {m : Operand}
    (hf : decodeFields (fetch s.prog s.pc) = i.fields) (hi : i = .ldr m ∨ i = .st m ∨ i = .eq m)
    (h : indexOperand m < s.cfg.memCells) : exec i s = .next (blockStep s) := by
  rcases hi with rfl | rfl | rfl
  · rw [exec_ldr_of_inside h]
    simp only [blockStep, hf, Instr.fields, Instr.operand, datapath_of_inside h]
    rfl
  · rw [exec_st_of_inside h]
    simp only [blockStep, hf, Instr.fields, Instr.operand, datapath_of_inside h]
    rfl
  · rw [exec_eq_of_inside h]
    simp only [blockStep, hf, Instr.fields, Instr.operand, datapath_of_inside h]
    rfl

/-- On an `ldc`'s fields no line of the datapath is raised, whatever the operand. -/
theorem blockStep_ldc {s : State} {m : Operand} (hf : decodeFields (fetch s.prog s.pc) = (Instr.ldc m).fields) :
    blockStep s = (s.setAcc (constantOperand s.cfg.cellBits m)).advance := by
  simp only [blockStep, hf, Instr.fields]
  rfl

/-- An instruction either names a cell or is an `ldc`. -/
theorem instr_ldc_or_cell (i : Instr) : ∃ m, i = .ldc m ∨ i = .ldr m ∨ i = .st m ∨ i = .eq m := by
  cases i <;> simp

/-- On an instruction's fields the joined blocks do what the instruction does. -/
theorem exec_eq_blockStep {s : State} {i : Instr} (hf : decodeFields (fetch s.prog s.pc) = i.fields) :
    exec i s = .next (blockStep s) := by
  obtain ⟨m, rfl | hi⟩ := instr_ldc_or_cell i
  · rw [exec_ldc, blockStep_ldc hf]
  · rcases Nat.lt_or_ge (indexOperand m) s.cfg.memCells with hm | hm
    · exact exec_eq_blockStep_of_inside hf hi hm
    · rw [exec_of_outside hi hm, blockStep_of_outside hf hi hm]

/-! ## A placed chunk -/

theorem fetch_append_bytes {before : List Byte} {p : Nat} (h : before.length = 4 * p) (c : Chunk)
    (after : List Byte) : fetch (before ++ c.bytes ++ after) p = c := by
  have hget : ∀ k, (before ++ c.bytes ++ after).getD (4 * p + k) 0#8 = (c.bytes ++ after).getD k 0#8 := fun k => by
    rw [List.append_assoc, List.getD_append_right _ _ _ _ (by omega), h, Nat.add_sub_cancel_left]
  have hget0 := hget 0
  rw [Nat.add_zero] at hget0
  simp only [fetch, hget, hget0]
  rfl

theorem padded_length (prog : List Byte) (n : Nat) :
    ((prog ++ List.replicate (n - prog.length) 0#8).take n).length = n := by
  rw [List.length_take, List.length_append, List.length_replicate]
  omega

@[simp] theorem fetch_placeChunk (prog : List Byte) (p : Nat) (c : Chunk) :
    fetch (placeChunk prog p c) p = c :=
  fetch_append_bytes (padded_length prog (4 * p)) c _

theorem lt_instrCount_placeChunk (prog : List Byte) (p : Nat) (c : Chunk) :
    p < instrCount (placeChunk prog p c) := by
  have hbytes : c.bytes.length = 4 := rfl
  rw [instrCount, placeChunk, List.length_append, List.length_append, padded_length, hbytes]
  omega

theorem decodeTableWord_some {nbits w : Nat} {i : Instr} (h : decodeTableWord nbits w = some i) :
    decode (chunkOfTableWord nbits w) = .ok i := by
  cases hd : decode (chunkOfTableWord nbits w) with
  | ok j =>
    rw [decodeTableWord, hd] at h
    exact congrArg Except.ok (Option.some.inj h)
  | error e =>
    rw [decodeTableWord, hd] at h
    cases h

/-! ## The obligations -/

/-- Settles O12: each chunk is what the fetch reads, and the stream's elements are the chunks decoded. -/
theorem streamIsItsChunks : Obligations.StreamIsItsChunks := by
  refine fun prog => ⟨decodeStream_length prog, fun p hp => ?_⟩
  rw [decodeStream, List.getElem?_map, chunksOf_getElem? hp, Option.map_some]

/-- Settles O15: a step keeps the stream, and a fetch reads nothing else. -/
theorem stepNeverChangesWhatIsFetched : Obligations.StepNeverChangesWhatIsFetched := by
  intro s t h
  obtain ⟨hcfg, hprog⟩ := step_sameLaunch h
  exact ⟨⟨hcfg, hprog⟩, fun p => by rw [hprog], by rw [hprog]⟩

/-- Settles O16, by contraposition from what a step can do to the memory and to `ACC`. -/
theorem onlyStoreWritesCellsOnlyLoadsAndEqWriteAcc :
    Obligations.OnlyStoreWritesCellsOnlyLoadsAndEqWriteAcc := by
  refine fun s t h => ⟨fun k hk => ?_, fun hacc => ?_⟩
  · by_contra hno
    exact hk (step_read_of_not_stored h fun m hd hm => hno ⟨m, hd, hm⟩)
  · exact (step_acc_cases h).resolve_left hacc

/-- Settles O9: `step` dispatches, and an instruction is dispatched to its meaning. -/
theorem stepRunsDecodedInstruction : Obligations.StepRunsDecodedInstruction :=
  fun _ _ hr hd _ => step_of_decode_ok hr hd

/-- Settles O17: a recorded fault excludes the other two, and without one the order of `PC` and `N` decides. -/
theorem exactlyOneRunPredicateHolds : Obligations.ExactlyOneRunPredicateHolds := by
  intro s hinv
  by_cases hf : s.fault = none
  · rcases Nat.lt_or_eq_of_le hinv.pc with hlt | heq
    · exact .inr (.inr ⟨not_not.mpr hf, fun hd => Nat.ne_of_lt hlt hd.2, hf, hlt⟩)
    · exact .inr (.inl ⟨not_not.mpr hf, ⟨hf, heq⟩, fun hr => Nat.ne_of_lt hr.2 heq⟩)
  · exact .inl ⟨hf, fun hd => hf hd.1, not_running_of_fault hf⟩

/-- Settles O29: the instruction at `PC` is run, and the bounds check fails. -/
theorem indexOutsideMemoryFaults : Obligations.IndexOutsideMemoryFaults := by
  intro s m hr hm hd
  obtain ⟨i, hdec, hi⟩ : ∃ i, decode (fetch s.prog s.pc) = .ok i ∧ (i = .ldr m ∨ i = .st m ∨ i = .eq m) := by
    rcases hd with hd | hd | hd
    · exact ⟨_, hd, .inl rfl⟩
    · exact ⟨_, hd, .inr (.inl rfl)⟩
    · exact ⟨_, hd, .inr (.inr rfl)⟩
  rw [step_of_decode_ok hr hdec, exec_of_outside hi hm]
  rfl

/-- Settles O30, from the two ways a step can fault. -/
theorem faultChangesOnlyTheRecord : Obligations.FaultChangesOnlyTheRecord := by
  intro s t r h hr
  have hf : t.fault ≠ none := by rw [hr]; exact Option.some_ne_none r
  rcases step_fault_cases h hf with ⟨i, m, hd, hi, hm, rfl⟩ | ⟨ho, rfl⟩
  · obtain ⟨hoperand, hopcode⟩ := fields_of_cell_instr hi
    cases hr
    rw [decode_ok hd, hoperand]
    exact ⟨rfl, rfl, .inr ⟨rfl, hopcode, hm, rfl⟩⟩
  · cases hr
    exact ⟨rfl, rfl, .inl ⟨rfl, ho, rfl⟩⟩

/-- Settles O48: the blocks against the meaning of the instruction at `PC`, or against the fault of a reserved
opcode. -/
theorem blocksAgreeWithStep : Obligations.BlocksAgreeWithStep := by
  intro s hr
  cases hd : decode (fetch s.prog s.pc) with
  | ok i => rw [step_of_decode_ok hr hd, exec_eq_blockStep (decode_ok hd)]
  | error e =>
    have ho := (decode_error hd).2
    rw [step_of_running hr, dispatch_decode_of_reserved ho, blockStep_of_reserved ho]

/-- Settles O49: the word stands where the next step fetches, and nothing but the stream and `FAULT` was touched. -/
theorem placedTableWordIsRunNext : Obligations.PlacedTableWordIsRunNext := by
  intro s nbits w i hw
  refine ⟨step_of_decode_ok ⟨rfl, lt_instrCount_placeChunk _ _ _⟩ ?_, rfl, rfl, rfl, rfl⟩
  rw [State.withFetchWord, fetch_placeChunk]
  exact decodeTableWord_some hw

end Sys2Proof.Proofs

/-! The data memory over several steps (20_memory.md sections 4 and 6, 43_equality.md): canonical memories as what they
read, a cell between two stores, and the cell domain. -/

namespace Sys2Proof.Proofs

open Sys2Proof.Machine Sys2Proof.Laws

/-! ## The cell domain -/

theorem toInt_ofInt_of_inCellDomain {w : Nat} {v : Int} (hw : 0 < w) (h : inCellDomain w v) :
    (BitVec.ofInt w v).toInt = v :=
  BitVec.toInt_ofInt_eq_self hw h.1 h.2

/-- On the cell domain a value is its bits. -/
theorem ofInt_inj_of_inCellDomain {w : Nat} {a b : Int} (hw : 0 < w) (ha : inCellDomain w a)
    (hb : inCellDomain w b) : BitVec.ofInt w a = BitVec.ofInt w b ↔ a = b := by
  refine ⟨fun h => ?_, congrArg _⟩
  rw [← toInt_ofInt_of_inCellDomain hw ha, h, toInt_ofInt_of_inCellDomain hw hb]

theorem equalityResult_eq_one_iff (a b : Int) : equalityResult a b = 1 ↔ a = b := by
  unfold equalityResult
  split <;> simp [*]

theorem equalityResult_eq_zero_iff (a b : Int) : equalityResult a b = 0 ↔ a ≠ b := by
  unfold equalityResult
  split <;> simp [*]

/-! ## Canonical memories -/

theorem read_cons_of_lt {j i : Nat} {v : Int} {rest : Memory} (h : Memory.wf ((j, v) :: rest)) (hi : i < j) :
    Memory.read ((j, v) :: rest) i = 0 := by
  obtain ⟨hgt, -, -⟩ := wf_cons_iff.mp h
  refine read_eq_zero_of_not_listed (List.forall_mem_cons.mpr ⟨Nat.ne_of_gt hi, fun c hc => ?_⟩)
  exact Nat.ne_of_gt (Nat.lt_trans hi (hgt c hc))

theorem read_cons_self (j : Nat) (v : Int) (rest : Memory) : Memory.read ((j, v) :: rest) j = v := if_pos rfl

theorem read_rest_self {j : Nat} {v : Int} {rest : Memory} (h : Memory.wf ((j, v) :: rest)) :
    Memory.read rest j = 0 :=
  read_eq_zero_of_not_listed fun c hc => Nat.ne_of_gt ((wf_cons_iff.mp h).1 c hc)

/-- The first listed cell of a canonical memory is the first cell that does not read 0. -/
theorem head_le_of_reads_alike {j k : Nat} {v w : Int} {a b : Memory} (ha : Memory.wf ((j, v) :: a))
    (hb : Memory.wf ((k, w) :: b))
    (h : ∀ i, Memory.read ((j, v) :: a) i = Memory.read ((k, w) :: b) i) : k ≤ j := by
  by_contra hlt
  have hread := h j
  rw [read_cons_self, read_cons_of_lt hb (Nat.lt_of_not_le hlt)] at hread
  exact (wf_cons_iff.mp ha).2.1 hread

/-- Of two canonical memories that read alike and begin with the same cell, the rests read alike too. -/
theorem rests_read_alike {j : Nat} {v : Int} {a b : Memory} (ha : Memory.wf ((j, v) :: a))
    (hb : Memory.wf ((j, v) :: b))
    (h : ∀ i, Memory.read ((j, v) :: a) i = Memory.read ((j, v) :: b) i) (i : Nat) :
    a.read i = b.read i := by
  by_cases hji : j = i
  · rw [← hji, read_rest_self ha, read_rest_self hb]
  · simpa only [read_cons, hji, if_false] using h i

theorem nil_ne_of_reads_alike {j : Nat} {v : Int} {a : Memory} (ha : Memory.wf ((j, v) :: a)) :
    ¬ ∀ i, Memory.read ((j, v) :: a) i = 0 := fun h =>
  (wf_cons_iff.mp ha).2.1 ((read_cons_self j v a).symm.trans (h j))

/-- A canonical memory is determined by its reads. -/
theorem memory_ext {a b : Memory} (ha : a.wf) (hb : b.wf) (h : ∀ i, a.read i = b.read i) : a = b := by
  induction a generalizing b with
  | nil =>
    cases b with
    | nil => rfl
    | cons d b => exact absurd (fun i => (h i).symm) (nil_ne_of_reads_alike hb)
  | cons c a ih =>
    cases b with
    | nil => exact absurd h (nil_ne_of_reads_alike ha)
    | cons d b =>
      obtain ⟨j, v⟩ := c
      obtain ⟨k, w⟩ := d
      obtain rfl : j = k :=
        Nat.le_antisymm (head_le_of_reads_alike hb ha fun i => (h i).symm) (head_le_of_reads_alike ha hb h)
      obtain rfl : v = w := by
        have hread := h j
        rwa [read_cons_self, read_cons_self] at hread
      rw [ih (wf_cons_iff.mp ha).2.2 (wf_cons_iff.mp hb).2.2 (rests_read_alike ha hb h)]

/-! ## Several steps -/

/-- None of the `k` instructions from `PC` on is an `st` to the cell. -/
def NotStoredWithin (k i : Nat) (s : State) : Prop :=
  ∀ p m, s.pc ≤ p → p < s.pc + k → decode (fetch s.prog p) = .ok (.st m) → indexOperand m ≠ i

theorem NotStoredWithin.of_step {k i : Nat} {s t : State} (h : NotStoredWithin (k + 1) i s)
    (hprog : t.prog = s.prog) (hpc : t.pc = s.pc + 1) : NotStoredWithin k i t := by
  intro p m hle hlt hd
  rw [hprog] at hd
  exact h p m (by omega) (by omega) hd

theorem runSteps_read_of_not_stored {k i : Nat} {s : State} (h : NotStoredWithin k i s) :
    (runSteps k s).mem.read i = s.mem.read i := by
  induction k generalizing s with
  | zero => rfl
  | succ k ih =>
    by_cases hr : s.isRunning
    · obtain ⟨t, ht⟩ := (step_enabled_iff s).mpr hr
      have hread : t.mem.read i = s.mem.read i :=
        step_read_of_not_stored ht fun m => h s.pc m le_rfl (by omega)
      rw [runSteps_succ_of_step ht, ← hread]
      rcases step_pc_cases ht with ⟨-, hpc⟩ | ⟨hfault, -⟩
      · exact ih (h.of_step (step_sameLaunch ht).2 hpc)
      · rw [runSteps_of_not_running (not_running_of_fault hfault)]
    · rw [runSteps_of_not_running hr]

/-! ## The obligations -/

/-- Settles O22: on the cell domain the bits determine the integer. -/
theorem equalityIsEqualityOfAllBits : Obligations.EqualityIsEqualityOfAllBits := by
  intro w a b hw ha hb
  have hbits := ofInt_inj_of_inCellDomain (Nat.lt_of_lt_of_le (by decide) hw) ha hb
  rw [equalityResult_eq_one_iff, equalityResult_eq_zero_iff, Ne, hbits]
  exact ⟨Iff.rfl, Iff.rfl⟩

/-- Settles O25, by induction along both lists. -/
theorem canonicalMemoriesAreEqualWhenTheyReadAlike : Obligations.CanonicalMemoriesAreEqualWhenTheyReadAlike :=
  fun _ _ => memory_ext

/-- Settles O26, by induction on the number of steps. -/
theorem cellKeepsItsValueUntilStored : Obligations.CellKeepsItsValueUntilStored :=
  fun _ _ _ => runSteps_read_of_not_stored

/-- Settles O27: a read after the write of a cell gives the value written. -/
theorem storeIsVisibleToTheNextInstruction : Obligations.StoreIsVisibleToTheNextInstruction := by
  intro m s hw hm
  have hread : (s.mem.write (indexOperand m) s.acc).read (indexOperand m) = s.acc := read_write_same hw _ _
  exact ⟨_, _, _, exec_st_of_inside hm, exec_ldr_of_inside hm, hread, fun _ => rfl, exec_eq_of_inside hm,
    equalityResult_of_eq hread.symm⟩

end Sys2Proof.Proofs

/-! The machine's invariant and the value set of a run (10_state.md, 43_equality.md): what a completed instruction and a
raised fault keep, and where the values of a step come from. -/

namespace Sys2Proof.Proofs

open Sys2Proof.Machine Sys2Proof.Laws

/-! ## Values of the cell domain -/

/-- Every constant of 28 bits is in the cell domain of an admitted width. -/
theorem inCellDomain_of_lt {w : Nat} {v : Int} (hw : 29 ≤ w) (h0 : 0 ≤ v) (h : v < 2 ^ 28) : inCellDomain w v := by
  have hpow : (2 : Int) ^ 28 ≤ 2 ^ (w - 1) := pow_le_pow_right₀ (by decide) (by omega)
  constructor <;> omega

theorem equalityResult_bounds (a b : Int) : 0 ≤ equalityResult a b ∧ equalityResult a b ≤ 1 := by
  unfold equalityResult
  split <;> decide

/-- The cells of a memory exist and hold values of the cell domain. -/
def CellsWithin (cfg : Config) (mem : Memory) : Prop :=
  ∀ c ∈ mem, c.1 < cfg.memCells ∧ inCellDomain cfg.cellBits c.2

theorem CellsWithin.write {cfg : Config} {mem : Memory} {i : Nat} {v : Int} (h : CellsWithin cfg mem)
    (hi : i < cfg.memCells) (hv : inCellDomain cfg.cellBits v) : CellsWithin cfg (mem.write i v) := by
  intro c hc
  rcases mem_write hc with ⟨rfl, -⟩ | hc
  · exact ⟨hi, hv⟩
  · exact h c hc

theorem CellsWithin.read {cfg : Config} {mem : Memory} (h : CellsWithin cfg mem) (hw : 29 ≤ cfg.cellBits)
    (i : Nat) : inCellDomain cfg.cellBits (mem.read i) := by
  rcases read_eq_zero_or_listed mem i with h0 | hlisted
  · rw [h0]
    exact inCellDomain_of_lt hw (by decide) (by decide)
  · exact (h _ hlisted).2

/-! ## What keeps the invariant -/

theorem faultLegal_of_none {s : State} (h : s.fault = none) :
    FaultLegal s ↔ (s.cfg.strictLength = true → leftover s.prog = 0) := by
  simp only [FaultLegal, h]

/-- An instruction that completes keeps the invariant if what it writes is in the cell domain. -/
theorem inv_of_completed {s t : State} (hs : s.Inv) (hr : s.isRunning) (hl : SameLaunch s t)
    (hpc : t.pc = s.pc + 1) (hf : t.fault = s.fault) (hacc : inCellDomain s.cfg.cellBits t.acc)
    (hmem : t.mem.wf) (hcells : CellsWithin s.cfg t.mem) : t.Inv := by
  obtain ⟨hcfg, hprog⟩ := hl
  have hnone : t.fault = none := hf.trans hr.1
  constructor
  · rw [hcfg]; exact hs.config
  · rw [hcfg, hprog]; exact hs.length
  · rwa [hcfg]
  · exact hmem
  · rwa [hcfg]
  · rw [hpc, hprog]; exact hr.2
  · rw [faultLegal_of_none hnone, hcfg, hprog]
    exact (faultLegal_of_none hr.1).mp hs.fault

/-- A fault keeps the invariant if the record it writes is legal. -/
theorem inv_raise {s : State} {r : Raise} (hs : s.Inv) (hf : FaultLegal (s.raise r)) : (s.raise r).Inv :=
  ⟨hs.config, hs.length, hs.acc, hs.mem, hs.cells, hs.pc, hf⟩

theorem faultLegal_raise_index {s : State} {i : Instr} {m : Operand} (hr : s.isRunning)
    (hd : decode (fetch s.prog s.pc) = .ok i) (hi : i = .ldr m ∨ i = .st m ∨ i = .eq m)
    (hm : s.cfg.memCells ≤ indexOperand m) : FaultLegal (s.raise (.indexFault m)) := by
  obtain ⟨hoperand, hopcode⟩ := fields_of_cell_instr hi
  rw [← decode_ok hd] at hoperand hopcode
  exact ⟨rfl, hr.2, hoperand.symm, hm, hopcode⟩

theorem faultLegal_raise_unknown {s : State} (hr : s.isRunning)
    (ho : (decodeFields (fetch s.prog s.pc)).opcode ∉ [2#4, 7#4, 11#4, 12#4]) :
    FaultLegal (s.raise (.unknownInstruction (decodeFields (fetch s.prog s.pc)).opcode)) :=
  ⟨rfl, hr.2, rfl, ho⟩

/-- The instruction at `PC` keeps the invariant. -/
theorem exec_inv {i : Instr} {s t : State} (hs : s.Inv) (hr : s.isRunning)
    (hd : decode (fetch s.prog s.pc) = .ok i) (h : exec i s = .next t) : t.Inv := by
  have hw : 29 ≤ s.cfg.cellBits := hs.config.2
  have hcells : CellsWithin s.cfg s.mem := hs.cells
  rcases exec_next_cases h with
    ⟨m, -, rfl⟩ | ⟨m, -, -, rfl⟩ | ⟨m, -, hm, rfl⟩ | ⟨m, -, -, rfl⟩ | ⟨m, hi, hm, rfl⟩
  · refine inv_of_completed hs hr ⟨rfl, rfl⟩ rfl rfl ?_ hs.mem hcells
    have hlt := m.isLt
    rw [advance_acc, setAcc_acc, constantOperand_eq hw]
    exact inCellDomain_of_lt hw (by omega) (by omega)
  · exact inv_of_completed hs hr ⟨rfl, rfl⟩ rfl rfl (hcells.read hw _) hs.mem hcells
  · exact inv_of_completed hs hr ⟨rfl, rfl⟩ rfl rfl hs.acc (write_wf hs.mem _ _) (hcells.write hm hs.acc)
  · refine inv_of_completed hs hr ⟨rfl, rfl⟩ rfl rfl ?_ hs.mem hcells
    obtain ⟨h0, h1⟩ := equalityResult_bounds s.acc (s.mem.read (indexOperand m))
    exact inCellDomain_of_lt hw h0 (Int.lt_of_le_of_lt h1 (by decide))
  · exact inv_raise hs (faultLegal_raise_index hr hd hi hm)

theorem step_inv {s t : State} (hs : s.Inv) (h : step s = .next t) : t.Inv := by
  obtain ⟨hr, ⟨i, hd, hx⟩ | ⟨e, hd, rfl⟩⟩ := step_next_cases h
  · exact exec_inv hs hr hd hx
  · obtain ⟨rfl, ho⟩ := decode_error hd
    exact inv_raise hs (faultLegal_raise_unknown hr ho)

/-! ## The value set -/

/-- A value of the run stays one while `PC` grows. -/
theorem valueOf_mono {seeds : List Int} {s t : State} {v : Int} (h : ValueOf seeds s v)
    (hprog : t.prog = s.prog) (hpc : s.pc ≤ t.pc) : ValueOf seeds t v := by
  rcases h with h0 | h1 | hseed | ⟨p, m, hp, hd, hv⟩
  · exact .inl h0
  · exact .inr (.inl h1)
  · exact .inr (.inr (.inl hseed))
  · exact .inr (.inr (.inr ⟨p, m, Nat.lt_of_lt_of_le hp hpc, by rwa [hprog], hv⟩))

theorem valueOf_equalityResult (seeds : List Int) (s : State) (a b : Int) :
    ValueOf seeds s (equalityResult a b) := by
  by_cases h : a = b
  · exact .inr (.inl (equalityResult_of_eq h))
  · exact .inl (equalityResult_of_ne h)

/-- `ACC` and every cell after a step hold values of the run, if `ACC` does and each cell holds an old cell's value or
the old `ACC`. -/
theorem valuesFrom_of_step {seeds : List Int} {s t : State} (hs : s.ValuesFrom seeds) (hprog : t.prog = s.prog)
    (hpc : s.pc ≤ t.pc) (hacc : ValueOf seeds t t.acc)
    (hcells : ∀ i, t.mem.read i = s.mem.read i ∨ t.mem.read i = s.acc) : t.ValuesFrom seeds := by
  refine ⟨hacc, fun i => ?_⟩
  rcases hcells i with hi | hi
  · rw [hi]; exact valueOf_mono (hs.cells i) hprog hpc
  · rw [hi]; exact valueOf_mono hs.acc hprog hpc

theorem read_write_cases {mem : Memory} (hw : mem.wf) (i k : Nat) (v : Int) :
    (mem.write i v).read k = mem.read k ∨ (mem.write i v).read k = v := by
  by_cases hk : k = i
  · rw [hk]; exact .inr (read_write_same hw i v)
  · exact .inl (read_write_other mem v hk)

/-- The instruction at `PC` keeps the value set: an `ldc` adds its operand to it as it is executed. -/
theorem exec_valuesFrom {seeds : List Int} {i : Instr} {s t : State} (hinv : s.Inv) (hs : s.ValuesFrom seeds)
    (hd : decode (fetch s.prog s.pc) = .ok i) (h : exec i s = .next t) : t.ValuesFrom seeds := by
  rcases exec_next_cases h with
    ⟨m, rfl, rfl⟩ | ⟨m, -, -, rfl⟩ | ⟨m, -, -, rfl⟩ | ⟨m, -, -, rfl⟩ | ⟨m, -, -, rfl⟩
  · refine valuesFrom_of_step hs rfl (Nat.le_succ _) ?_ fun _ => .inl rfl
    exact .inr (.inr (.inr ⟨s.pc, m, Nat.lt_succ_self _, hd, constantOperand_eq hinv.config.2 m⟩))
  · exact valuesFrom_of_step hs rfl (Nat.le_succ _) (valueOf_mono (hs.cells _) rfl (Nat.le_succ _)) fun _ => .inl rfl
  · exact valuesFrom_of_step hs rfl (Nat.le_succ _) (valueOf_mono hs.acc rfl (Nat.le_succ _)) fun k =>
      read_write_cases hinv.mem _ k _
  · exact valuesFrom_of_step hs rfl (Nat.le_succ _) (valueOf_equalityResult seeds _ _ _) fun _ => .inl rfl
  · exact valuesFrom_of_step hs rfl le_rfl (valueOf_mono hs.acc rfl le_rfl) fun _ => .inl rfl

/-! ## The obligations -/

/-- Settles O34: the four ways to complete write values of the cell domain, and the two faults write legal records. -/
theorem stepKeepsTheInvariant : Obligations.StepKeepsTheInvariant := fun _ _ => step_inv

/-- Settles O33, field by field. -/
theorem resetHasTheInvariant : Obligations.ResetHasTheInvariant where
  config := by decide
  length := by decide
  acc := by decide
  mem := reset_mem_wf
  cells := fun _ hc => absurd hc List.not_mem_nil
  pc := Nat.zero_le _
  fault := (faultLegal_of_none rfl).mpr fun _ => rfl

/-- Settles O44: a step copies old values, writes 0 or 1, or executes an `ldc`. -/
theorem stepKeepsTheValueSet : Obligations.StepKeepsTheValueSet := by
  intro seeds s t hinv hs h
  obtain ⟨-, ⟨i, hd, hx⟩ | ⟨e, -, rfl⟩⟩ := step_next_cases h
  · exact exec_valuesFrom hinv hs hd hx
  · exact valuesFrom_of_step hs rfl le_rfl (valueOf_mono hs.acc rfl le_rfl) fun _ => .inl rfl

end Sys2Proof.Proofs

/-! The host's actions (70_reset_and_hazards.md): several seeds as several writes, a launch as loading, seeds and checks
one after the other, the order of events, and what the host reads afterwards. -/

namespace Sys2Proof.Proofs

open Sys2Proof.Machine Sys2Proof.Laws

/-! ## Outcomes, one after the other -/

/-- What follows a next state; a fault or a refusal is passed on. -/
def andThen {α β : Type} (o : Host.Outcome α Fault Refusal) (f : α → Host.Outcome β Fault Refusal) :
    Host.Outcome β Fault Refusal :=
  match o with
  | .next a => f a
  | .fault r => .fault r
  | .refused r => .refused r

section AndThen

variable {α β γ : Type}

@[simp] theorem andThen_next (a : α) (f : α → Host.Outcome β Fault Refusal) : andThen (.next a) f = f a := rfl

@[simp] theorem andThen_refused (r : Refusal) (f : α → Host.Outcome β Fault Refusal) :
    andThen (.refused r) f = .refused r := rfl

theorem andThen_eq_next {o : Host.Outcome α Fault Refusal} {f : α → Host.Outcome β Fault Refusal} {b : β}
    (h : andThen o f = .next b) : ∃ a, o = .next a ∧ f a = .next b := by
  cases o with
  | next a => exact ⟨a, rfl, h⟩
  | fault r => cases h
  | refused r => cases h

theorem andThen_assoc (o : Host.Outcome α Fault Refusal) (f : α → Host.Outcome β Fault Refusal)
    (g : β → Host.Outcome γ Fault Refusal) : andThen (andThen o f) g = andThen o fun a => andThen (f a) g := by
  cases o <;> rfl

theorem andThen_congr {o : Host.Outcome α Fault Refusal} {f g : α → Host.Outcome β Fault Refusal}
    (h : ∀ a, o = .next a → f a = g a) : andThen o f = andThen o g := by
  cases o with
  | next a => exact h a rfl
  | fault r => rfl
  | refused r => rfl

theorem inSession_eq_andThen (f : α → Session) (o : Host.Outcome α Fault Refusal) :
    inSession f o = andThen o fun a => .next (f a) := by
  cases o <;> rfl

end AndThen

theorem preSeedAll_cons (i : Nat) (v : Int) (rest : List (Nat × Int)) (p : Preparation) :
    preSeedAll ((i, v) :: rest) p = andThen (preSeed i v p) (preSeedAll rest) := by
  rw [preSeedAll]
  cases preSeed i v p <;> rfl

theorem hostEvents_cons (e : HostEvent) (rest : List HostEvent) (m : Session) :
    hostEvents (e :: rest) m = andThen (hostEvent e m) (hostEvents rest) := by
  rw [hostEvents]
  cases hostEvent e m <;> rfl

theorem hostEvent_load (prog : List Byte) (p : Preparation) :
    hostEvent (.load prog) (.preparing p) = inSession .preparing (loadProgram prog p) := rfl

theorem hostEvent_seed (i : Nat) (v : Int) (p : Preparation) :
    hostEvent (.seed i v) (.preparing p) = inSession .preparing (preSeed i v p) := rfl

theorem hostEvent_boot (p : Preparation) :
    hostEvent .boot (.preparing p) = inSession .launched (boot p) := rfl

/-! ## Several seeds -/

/-- Seeds the host may give: cells that exist, values of the cell domain. -/
def AdmittedSeeds (cfg : Config) (seeds : List (Nat × Int)) : Prop :=
  ∀ c ∈ seeds, c.1 < cfg.memCells ∧ inCellDomain cfg.cellBits c.2

theorem admittedSeeds_cons_iff {cfg : Config} {i : Nat} {v : Int} {rest : List (Nat × Int)} :
    AdmittedSeeds cfg ((i, v) :: rest) ↔
      (i < cfg.memCells ∧ inCellDomain cfg.cellBits v) ∧ AdmittedSeeds cfg rest :=
  List.forall_mem_cons

/-- A memory after several writes, in order. -/
def writeSeeds (seeds : List (Nat × Int)) (mem : Memory) : Memory :=
  seeds.foldl (fun mem c => mem.write c.1 c.2) mem

@[simp] theorem writeSeeds_cons (i : Nat) (v : Int) (rest : List (Nat × Int)) (mem : Memory) :
    writeSeeds ((i, v) :: rest) mem = writeSeeds rest (mem.write i v) := rfl

/-- A machine in preparation after several admitted seeds. -/
def seeded (seeds : List (Nat × Int)) (p : Preparation) : Preparation :=
  { p with state := p.state.setMem (writeSeeds seeds p.state.mem) }

theorem preSeed_of_admitted {i : Nat} {v : Int} {p : Preparation} (hi : i < p.state.cfg.memCells)
    (hv : inCellDomain p.state.cfg.cellBits v) :
    preSeed i v p = .next { p with state := p.state.setMem (p.state.mem.write i v) } := by
  rw [preSeed, if_neg (Nat.not_le.mpr hi), if_neg (not_not.mpr hv)]

theorem preSeed_loaded {i : Nat} {v : Int} {p q : Preparation} (h : preSeed i v p = .next q) :
    q.loaded = p.loaded := by
  obtain ⟨-, -, rfl⟩ := preSeed_next h
  rfl

theorem preSeed_of_index_outside {i : Nat} {v : Int} {p : Preparation} (hi : p.state.cfg.memCells ≤ i) :
    preSeed i v p = .refused .seedIndexOutOfRange :=
  if_pos hi

theorem preSeed_of_value_outside {i : Nat} {v : Int} {p : Preparation} (hi : i < p.state.cfg.memCells)
    (hv : ¬ inCellDomain p.state.cfg.cellBits v) : preSeed i v p = .refused .seedValueOutOfRange := by
  rw [preSeed, if_neg (Nat.not_le.mpr hi), if_pos hv]

/-- Admitted seeds are written, and the rest is seeded after them. -/
theorem preSeedAll_append {seeds : List (Nat × Int)} {p : Preparation} (h : AdmittedSeeds p.state.cfg seeds)
    (rest : List (Nat × Int)) : preSeedAll (seeds ++ rest) p = preSeedAll rest (seeded seeds p) := by
  induction seeds generalizing p with
  | nil => rfl
  | cons c seeds ih =>
    obtain ⟨i, v⟩ := c
    obtain ⟨⟨hi, hv⟩, hrest⟩ := admittedSeeds_cons_iff.mp h
    rw [List.cons_append, preSeedAll_cons, preSeed_of_admitted hi hv, andThen_next]
    exact ih hrest

theorem preSeedAll_of_admitted {seeds : List (Nat × Int)} {p : Preparation}
    (h : AdmittedSeeds p.state.cfg seeds) : preSeedAll seeds p = .next (seeded seeds p) := by
  have happend := preSeedAll_append h []
  rwa [List.append_nil] at happend

/-- Everything several seeds can do. -/
theorem preSeedAll_next {seeds : List (Nat × Int)} {p q : Preparation} (h : preSeedAll seeds p = .next q) :
    AdmittedSeeds p.state.cfg seeds ∧ q = seeded seeds p := by
  induction seeds generalizing p with
  | nil => cases h; exact ⟨fun c hc => absurd hc List.not_mem_nil, rfl⟩
  | cons c seeds ih =>
    obtain ⟨i, v⟩ := c
    rw [preSeedAll_cons] at h
    obtain ⟨p', hp', hrest⟩ := andThen_eq_next h
    obtain ⟨hi, hv, rfl⟩ := preSeed_next hp'
    obtain ⟨hadmitted, rfl⟩ := ih hrest
    exact ⟨admittedSeeds_cons_iff.mpr ⟨⟨hi, hv⟩, hadmitted⟩, rfl⟩

/-- After several writes a cell reads the last value written to it, or what it read before. -/
theorem read_writeSeeds {mem : Memory} (hw : mem.wf) (seeds : List (Nat × Int)) (i : Nat) :
    (writeSeeds seeds mem).read i =
      ((seeds.reverse.find? fun c => c.1 == i).map Prod.snd).getD (mem.read i) := by
  induction seeds generalizing mem with
  | nil => rfl
  | cons c seeds ih =>
    obtain ⟨j, v⟩ := c
    rw [writeSeeds_cons, ih (write_wf hw j v), List.reverse_cons, List.find?_append]
    cases seeds.reverse.find? fun c => c.1 == i with
    | some d => rfl
    | none =>
      by_cases hj : j = i
      · simp [hj, read_write_same hw]
      · simp [hj, read_write_other mem v (Ne.symm hj)]

/-- A cell of a seeded memory reads 0 or the value of a seed. -/
theorem read_writeSeeds_nil_cases (seeds : List (Nat × Int)) (i : Nat) :
    (writeSeeds seeds []).read i = 0 ∨ (writeSeeds seeds []).read i ∈ seeds.map Prod.snd := by
  rw [read_writeSeeds nil_wf]
  cases hfind : seeds.reverse.find? fun c => c.1 == i with
  | none => exact .inl rfl
  | some c =>
    have hc : c ∈ seeds := List.mem_reverse.mp (List.mem_of_find?_eq_some hfind)
    exact .inr (List.mem_map_of_mem hc)

/-! ## A launch as its events -/

/-- A machine in preparation whose stream the host has given. -/
def withProgram (prog : List Byte) (p : Preparation) : Preparation :=
  { state := { p.state with prog := prog }, loaded := true }

theorem loadProgram_of_not_loaded {p : Preparation} (h : p.loaded = false) (prog : List Byte) :
    loadProgram prog p = .next (withProgram prog p) := by
  rw [loadProgram, h]
  rfl

/-- A launch seeds the machine with its stream and makes the checks. -/
theorem launch_eq (cfg : Config) (prog : List Byte) (seeds : List (Nat × Int)) :
    launch cfg prog seeds = andThen (preSeedAll seeds (withProgram prog (construct cfg))) boot := by
  simp only [launch, loadProgram_of_not_loaded (construct_loaded cfg)]
  cases preSeedAll seeds (withProgram prog (construct cfg)) <;> rfl

/-- The machine of a launch when its checks are made. -/
def launchState (cfg : Config) (prog : List Byte) (seeds : List (Nat × Int)) : State :=
  (seeded seeds (withProgram prog (construct cfg))).state

theorem launch_of_admitted {cfg : Config} {seeds : List (Nat × Int)} (h : AdmittedSeeds cfg seeds)
    (prog : List Byte) :
    launch cfg prog seeds = boot { state := launchState cfg prog seeds, loaded := true } := by
  have hseeds : AdmittedSeeds (withProgram prog (construct cfg)).state.cfg seeds := h
  rw [launch_eq, preSeedAll_of_admitted hseeds]
  rfl

/-- Everything a launch can do: its seeds were admitted and the checks answered. -/
theorem launch_next {cfg : Config} {prog : List Byte} {seeds : List (Nat × Int)} {s : State}
    (h : launch cfg prog seeds = .next s) :
    AdmittedSeeds cfg seeds ∧ boot { state := launchState cfg prog seeds, loaded := true } = .next s := by
  have hlaunch := h
  rw [launch_eq] at h
  obtain ⟨q, hq, -⟩ := andThen_eq_next h
  have hadmitted : AdmittedSeeds cfg seeds := (preSeedAll_next hq).1
  rw [launch_of_admitted hadmitted] at hlaunch
  exact ⟨hadmitted, hlaunch⟩

/-- What the checks leave alone: everything but `FAULT`. -/
theorem boot_keeps {p : Preparation} {s : State} (h : boot p = .next s) :
    SameLaunch p.state s ∧ s.acc = p.state.acc ∧ s.mem = p.state.mem ∧ s.pc = p.state.pc := by
  obtain ⟨-, -, -, ⟨-, -, rfl⟩ | ⟨-, rfl⟩⟩ := boot_next h
  · exact ⟨⟨rfl, rfl⟩, rfl, rfl, rfl⟩
  · exact ⟨⟨rfl, rfl⟩, rfl, rfl, rfl⟩

/-- What a launch leaves in the state but for `FAULT`. -/
theorem launch_keeps {cfg : Config} {prog : List Byte} {seeds : List (Nat × Int)} {s : State}
    (h : launch cfg prog seeds = .next s) :
    s.cfg = cfg ∧ s.prog = prog ∧ s.acc = 0 ∧ s.mem = writeSeeds seeds [] ∧ s.pc = 0 := by
  obtain ⟨⟨hcfg, hprog⟩, hacc, hmem, hpc⟩ := boot_keeps (launch_next h).2
  exact ⟨hcfg, hprog, hacc, hmem, hpc⟩

/-! ## The invariant of a preparation -/

theorem loadProgram_inv {prog : List Byte} {p q : Preparation} (hp : p.Inv) (h : loadProgram prog p = .next q) :
    q.Inv := by
  obtain ⟨-, rfl⟩ := loadProgram_next h
  exact ⟨hp.acc, hp.pc, hp.fault, hp.mem, hp.cells⟩

theorem preSeed_inv {i : Nat} {v : Int} {p q : Preparation} (hp : p.Inv) (h : preSeed i v p = .next q) :
    q.Inv := by
  obtain ⟨hi, hv, rfl⟩ := preSeed_next h
  exact ⟨hp.acc, hp.pc, hp.fault, write_wf hp.mem i v, CellsWithin.write hp.cells hi hv⟩

theorem preSeedAll_inv {seeds : List (Nat × Int)} {p q : Preparation} (hp : p.Inv)
    (h : preSeedAll seeds p = .next q) : q.Inv := by
  induction seeds generalizing p with
  | nil => cases h; exact hp
  | cons c seeds ih =>
    rw [preSeedAll_cons] at h
    obtain ⟨p', hp', hrest⟩ := andThen_eq_next h
    exact ih (preSeed_inv hp hp') hrest

/-- The checks lead from a machine in preparation to one that meets the machine's invariant. -/
theorem boot_inv {p : Preparation} {s : State} (hp : p.Inv) (h : boot p = .next s) : s.Inv := by
  obtain ⟨-, hcfg, hlen, hboot⟩ := boot_next h
  have hacc : inCellDomain p.state.cfg.cellBits p.state.acc := by
    rw [hp.acc]
    exact inCellDomain_of_lt hcfg.2 (by decide) (by decide)
  have hpc : p.state.pc ≤ instrCount p.state.prog := by
    rw [hp.pc]
    exact Nat.zero_le _
  rcases hboot with ⟨hstrict, hleft, rfl⟩ | ⟨hleft, rfl⟩
  · exact ⟨hcfg, hlen, hacc, hp.mem, hp.cells, hpc, ⟨hstrict, hleft, rfl, rfl, hp.pc⟩⟩
  · exact ⟨hcfg, hlen, hacc, hp.mem, hp.cells, hpc, (faultLegal_of_none hp.fault).mpr hleft⟩

theorem launch_inv {cfg : Config} {prog : List Byte} {seeds : List (Nat × Int)} {s : State}
    (h : launch cfg prog seeds = .next s) : s.Inv := by
  rw [launch_eq] at h
  obtain ⟨q, hq, hboot⟩ := andThen_eq_next h
  have hload : (withProgram prog (construct cfg)).Inv :=
    loadProgram_inv (prepareAgain_inv _) (loadProgram_of_not_loaded (construct_loaded cfg) prog)
  exact boot_inv (preSeedAll_inv hload hq) hboot

/-! ## The checks, forwards -/

theorem boot_of_bad_parameters {s : State} (h : ¬ s.cfg.wf) :
    boot { state := s, loaded := true } = .refused .badParameters := by
  rw [boot, if_neg (not_not.mpr rfl), if_pos h]

theorem boot_of_too_long {s : State} (hw : s.cfg.wf) (h : s.cfg.progMax < instrCount s.prog) :
    boot { state := s, loaded := true } = .refused .programTooLong := by
  rw [boot, if_neg (not_not.mpr rfl), if_neg (not_not.mpr hw), if_pos h]

/-- The checks succeed on admitted parameters and a stream within `PROG_MAX`. -/
theorem boot_total {s : State} (hw : s.cfg.wf) (h : instrCount s.prog ≤ s.cfg.progMax) :
    ∃ t, boot { state := s, loaded := true } = .next t := by
  rw [boot, if_neg (not_not.mpr rfl), if_neg (not_not.mpr hw), if_neg (Nat.not_lt.mpr h)]
  split <;> exact ⟨_, rfl⟩

/-- What the checks do to `FAULT`, by what is left over of the stream. -/
theorem boot_fault {s t : State} (h : boot { state := s, loaded := true } = .next t) :
    (s.cfg.strictLength = true ∧ leftover s.prog ≠ 0 →
      t.fault = some { cause := .malformedInput, info := BitVec.ofNat 28 (leftover s.prog)
                       fpc := instrCount s.prog }) ∧
    (s.cfg.strictLength = false ∨ leftover s.prog = 0 → t.fault = s.fault) := by
  obtain ⟨-, -, -, ⟨hstrict, hleft, rfl⟩ | ⟨hleft, rfl⟩⟩ := boot_next h
  · refine ⟨fun _ => rfl, fun hno => ?_⟩
    rcases hno with hlax | hzero
    · exact absurd (hstrict.symm.trans hlax) (by decide)
    · exact absurd hzero hleft
  · exact ⟨fun ⟨hstrict, hne⟩ => absurd (hleft hstrict) hne, fun _ => rfl⟩

theorem launch_total {cfg : Config} {prog : List Byte} {seeds : List (Nat × Int)} (hw : cfg.wf)
    (hlen : instrCount prog ≤ cfg.progMax) (hseeds : AdmittedSeeds cfg seeds) :
    ∃ s, launch cfg prog seeds = .next s := by
  rw [launch_of_admitted hseeds]
  exact boot_total hw hlen

/-- A launch stops at the first seed that is not admitted. -/
theorem launch_of_bad_seed {cfg : Config} {seeds rest : List (Nat × Int)} {i : Nat} {v : Int} {r : Refusal}
    (hseeds : AdmittedSeeds cfg seeds)
    (h : ∀ p : Preparation, p.state.cfg = cfg → preSeed i v p = .refused r) (prog : List Byte) :
    launch cfg prog (seeds ++ (i, v) :: rest) = .refused r := by
  have hgood : AdmittedSeeds (withProgram prog (construct cfg)).state.cfg seeds := hseeds
  rw [launch_eq, preSeedAll_append hgood, preSeedAll_cons, h _ rfl, andThen_refused, andThen_refused]

/-! ## The order of events -/

/-- Seeds only. -/
def OnlySeeds (es : List HostEvent) : Prop := ∀ e ∈ es, ∃ i v, e = HostEvent.seed i v

theorem onlySeeds_nil : OnlySeeds [] := fun _ he => absurd he List.not_mem_nil

theorem OnlySeeds.cons {es : List HostEvent} (h : OnlySeeds es) (i : Nat) (v : Int) : OnlySeeds (.seed i v :: es) :=
  List.forall_mem_cons.mpr ⟨⟨i, v, rfl⟩, h⟩

theorem not_reset_mem_cons {e : HostEvent} {es : List HostEvent} (h : HostEvent.reset ∉ e :: es) :
    e ≠ .reset ∧ HostEvent.reset ∉ es :=
  ⟨fun he => h (he ▸ List.mem_cons_self), fun he => h (List.mem_cons_of_mem _ he)⟩

/-- A launched machine that is not reset takes steps only. -/
theorem events_of_launched {es : List HostEvent} {s : State} {m : Session}
    (h : hostEvents es (.launched s) = .next m) (hno : HostEvent.reset ∉ es) :
    ∃ t k, m = .launched t ∧ es = List.replicate k .step := by
  induction es generalizing s with
  | nil => cases h; exact ⟨s, 0, rfl, rfl⟩
  | cons e es ih =>
    obtain ⟨hne, hrest⟩ := not_reset_mem_cons hno
    rw [hostEvents_cons] at h
    obtain ⟨m', hm', htail⟩ := andThen_eq_next h
    rcases hostEvent_next hm' with
      ⟨rfl, -⟩ | ⟨_, _, _, -, hp, -⟩ | ⟨_, _, _, _, -, hp, -⟩ | ⟨_, _, -, hp, -⟩ | ⟨_, t, rfl, -, rfl, -⟩
    · exact absurd rfl hne
    · cases hp
    · cases hp
    · cases hp
    · obtain ⟨u, k, rfl, rfl⟩ := ih htail hrest
      exact ⟨u, k + 1, rfl, rfl⟩

/-- A machine with its stream takes seeds, then the checks and steps. -/
theorem events_of_loaded {es : List HostEvent} {p : Preparation} {m : Session} (hloaded : p.loaded = true)
    (h : hostEvents es (.preparing p) = .next m) (hno : HostEvent.reset ∉ es) :
    (∃ q, m = .preparing q ∧ OnlySeeds es) ∨
      ∃ s after k, m = .launched s ∧ es = after ++ .boot :: List.replicate k .step ∧ OnlySeeds after := by
  induction es generalizing p with
  | nil => cases h; exact .inl ⟨p, rfl, onlySeeds_nil⟩
  | cons e es ih =>
    obtain ⟨hne, hrest⟩ := not_reset_mem_cons hno
    rw [hostEvents_cons] at h
    obtain ⟨m', hm', htail⟩ := andThen_eq_next h
    rcases hostEvent_next hm' with
      ⟨rfl, -⟩ | ⟨_, _, _, -, hp, -, hload⟩ | ⟨i, v, _, q, rfl, hp, rfl, hseed⟩ | ⟨_, s, rfl, -, rfl, -⟩ |
        ⟨_, _, -, hp, -⟩
    · exact absurd rfl hne
    · cases hp
      exact absurd (hloaded.symm.trans (loadProgram_next hload).1) (by decide)
    · cases hp
      have hq := (preSeed_loaded hseed).trans hloaded
      rcases ih hq htail hrest with ⟨q, rfl, hseeds⟩ | ⟨s, after, k, rfl, rfl, hseeds⟩
      · exact .inl ⟨q, rfl, hseeds.cons i v⟩
      · exact .inr ⟨s, .seed i v :: after, k, rfl, rfl, hseeds.cons i v⟩
    · obtain ⟨t, k, rfl, rfl⟩ := events_of_launched htail hrest
      exact .inr ⟨t, [], k, rfl, rfl, onlySeeds_nil⟩
    · cases hp

/-- The events of a machine without its stream: seeds, then perhaps the stream and what follows it. -/
theorem events_of_unloaded {es : List HostEvent} {p : Preparation} {m : Session} (hloaded : p.loaded = false)
    (h : hostEvents es (.preparing p) = .next m) (hno : HostEvent.reset ∉ es) :
    ((∃ q, m = .preparing q) ∧ OnlySeeds es) ∨
      ∃ before prog rest q, es = before ++ .load prog :: rest ∧ OnlySeeds before ∧ q.loaded = true ∧
        hostEvents rest (.preparing q) = .next m ∧ HostEvent.reset ∉ rest := by
  induction es generalizing p with
  | nil => cases h; exact .inl ⟨⟨p, rfl⟩, onlySeeds_nil⟩
  | cons e es ih =>
    obtain ⟨hne, hrest⟩ := not_reset_mem_cons hno
    rw [hostEvents_cons] at h
    obtain ⟨m', hm', htail⟩ := andThen_eq_next h
    rcases hostEvent_next hm' with
      ⟨rfl, -⟩ | ⟨prog, _, q, rfl, -, rfl, hload⟩ | ⟨i, v, _, q, rfl, hp, rfl, hseed⟩ | ⟨_, _, -, hp, -, hboot⟩ |
        ⟨_, _, -, hp, -⟩
    · exact absurd rfl hne
    · obtain ⟨-, rfl⟩ := loadProgram_next hload
      exact .inr ⟨[], prog, es, _, rfl, onlySeeds_nil, rfl, htail, hrest⟩
    · cases hp
      have hq := (preSeed_loaded hseed).trans hloaded
      rcases ih hq htail hrest with ⟨hm, hseeds⟩ | ⟨before, prog, rest, q, rfl, hseeds, hrun⟩
      · exact .inl ⟨hm, hseeds.cons i v⟩
      · exact .inr ⟨.seed i v :: before, prog, rest, q, rfl, hseeds.cons i v, hrun⟩
    · cases hp
      exact absurd (hloaded.symm.trans (boot_next hboot).1) (by decide)
    · cases hp

/-! ## A launch in either order -/

/-- The events of a launch's seeds. -/
def seedEvents (seeds : List (Nat × Int)) : List HostEvent := seeds.map fun c => .seed c.1 c.2

theorem hostEvents_seedEvents (seeds : List (Nat × Int)) (es : List HostEvent) (p : Preparation) :
    hostEvents (seedEvents seeds ++ es) (.preparing p) =
      andThen (preSeedAll seeds p) fun q => hostEvents es (.preparing q) := by
  induction seeds generalizing p with
  | nil => rfl
  | cons c seeds ih =>
    obtain ⟨i, v⟩ := c
    rw [preSeedAll_cons, andThen_assoc, seedEvents, List.map_cons, List.cons_append, hostEvents_cons,
      hostEvent_seed, inSession_eq_andThen, andThen_assoc]
    exact andThen_congr fun q _ => ih q

theorem hostEvents_load {p : Preparation} (h : p.loaded = false) (prog : List Byte) (es : List HostEvent) :
    hostEvents (.load prog :: es) (.preparing p) = hostEvents es (.preparing (withProgram prog p)) := by
  rw [hostEvents_cons, hostEvent_load, loadProgram_of_not_loaded h]
  rfl

theorem hostEvents_boot (p : Preparation) : hostEvents [.boot] (.preparing p) = inSession .launched (boot p) := by
  rw [hostEvents_cons, hostEvent_boot]
  cases boot p <;> rfl

/-- A seed does not depend on the stream. -/
theorem preSeed_withProgram (i : Nat) (v : Int) (prog : List Byte) (p : Preparation) :
    preSeed i v (withProgram prog p) = andThen (preSeed i v p) fun q => .next (withProgram prog q) := by
  rcases Nat.lt_or_ge i p.state.cfg.memCells with hi | hi
  · by_cases hv : inCellDomain p.state.cfg.cellBits v
    · rw [preSeed_of_admitted hi hv, preSeed_of_admitted (p := withProgram prog p) hi hv]
      rfl
    · rw [preSeed_of_value_outside hi hv, preSeed_of_value_outside (p := withProgram prog p) hi hv,
        andThen_refused]
  · rw [preSeed_of_index_outside hi, preSeed_of_index_outside (p := withProgram prog p) hi, andThen_refused]

theorem preSeedAll_withProgram (seeds : List (Nat × Int)) (prog : List Byte) (p : Preparation) :
    preSeedAll seeds (withProgram prog p) =
      andThen (preSeedAll seeds p) fun q => .next (withProgram prog q) := by
  induction seeds generalizing p with
  | nil => rfl
  | cons c seeds ih =>
    obtain ⟨i, v⟩ := c
    rw [preSeedAll_cons, preSeedAll_cons, preSeed_withProgram, andThen_assoc, andThen_assoc]
    exact andThen_congr fun q _ => ih q

theorem load_seeds_boot_eq_launch (cfg : Config) (prog : List Byte) (seeds : List (Nat × Int)) :
    hostEvents (.load prog :: (seedEvents seeds ++ [.boot])) (.preparing (construct cfg)) =
      inSession .launched (launch cfg prog seeds) := by
  rw [hostEvents_load (construct_loaded cfg), hostEvents_seedEvents, launch_eq, inSession_eq_andThen,
    andThen_assoc]
  exact andThen_congr fun q _ => by rw [hostEvents_boot, inSession_eq_andThen]

theorem seeds_load_boot_eq_launch (cfg : Config) (prog : List Byte) (seeds : List (Nat × Int)) :
    hostEvents (seedEvents seeds ++ [.load prog, .boot]) (.preparing (construct cfg)) =
      inSession .launched (launch cfg prog seeds) := by
  rw [hostEvents_seedEvents, launch_eq, preSeedAll_withProgram, andThen_assoc, inSession_eq_andThen,
    andThen_assoc]
  refine andThen_congr fun q hq => ?_
  obtain ⟨-, rfl⟩ := preSeedAll_next hq
  rw [hostEvents_load rfl, hostEvents_boot, inSession_eq_andThen]
  rfl

/-! ## What the host reads -/

theorem window_length (memCells : Nat) (mem : Memory) (start stop : Nat) :
    (window memCells mem start stop).length = min stop memCells - min start memCells := by
  rw [window, List.length_map, List.length_range']

theorem window_getElem? {memCells : Nat} {mem : Memory} {start stop k : Nat}
    (h : k < (window memCells mem start stop).length) :
    (window memCells mem start stop)[k]? = some (mem.read (min start memCells + k)) := by
  rw [window_length] at h
  rw [window, List.getElem?_map, List.getElem?_range' h, Nat.one_mul, Option.map_some]

theorem exportMemory_of_not_done {s : State} (h : ¬ s.isDone) (start stop : Int) :
    exportMemory s start stop = .error .exportNotDone :=
  if_pos h

theorem exportMemory_of_negative {s : State} {start stop : Int} (h : s.isDone) (hneg : start < 0 ∨ stop < 0) :
    exportMemory s start stop = .error .exportNegativeBound := by
  rw [exportMemory, if_neg (not_not.mpr h), if_pos hneg]

theorem exportMemory_of_done {s : State} (h : s.isDone) (start stop : Nat) :
    exportMemory s start stop = .ok (window s.cfg.memCells s.mem start stop) := by
  have hneg : ¬ ((start : Int) < 0 ∨ (stop : Int) < 0) := by omega
  rw [exportMemory, if_neg (not_not.mpr h), if_neg hneg]
  rfl

theorem hostResult_of_done {s : State} (h : s.isDone) : hostResult s = .ok (.good s.acc) := by
  simp only [hostResult, h.1, h.2, Nat.lt_irrefl, if_false]

theorem hostResult_of_fault {s : State} {r : FaultRecord} (h : s.fault = some r) :
    hostResult s = .ok (.failed r) := by
  simp only [hostResult, h]

theorem hostResult_of_running {s : State} (h : s.isRunning) : hostResult s = .error .hostDuringRun := by
  simp only [hostResult, h.1, h.2, if_true]

theorem not_done_of_running {s : State} (h : s.isRunning) : ¬ s.isDone := fun hd => Nat.ne_of_lt h.2 hd.2

/-! ## The obligations -/

/-- Settles O32, field by field. -/
theorem resetSetsEveryItem : Obligations.ResetSetsEveryItem := by
  refine ⟨fun s => ⟨rfl, read_nil, rfl, rfl, rfl, rfl⟩, fun s hcfg hprog => ?_, rfl⟩
  rw [State.applyReset, hcfg, hprog]
  rfl

/-- Settles O35: loading and seeds keep the invariant of a preparation, and the checks lead to the machine's. -/
theorem launchGivesTheInvariant : Obligations.LaunchGivesTheInvariant := by
  intro cfg prog seeds s h
  obtain ⟨hcfg, hprog, hacc, -, hpc⟩ := launch_keeps h
  exact ⟨launch_inv h, hcfg, hprog, hpc, hacc⟩

/-- Settles O36: the seeds are written in order, from cells that read 0. -/
theorem preSeededCellsHoldTheirSeeds : Obligations.PreSeededCellsHoldTheirSeeds := by
  intro cfg prog seeds hw hlen hseeds
  obtain ⟨s, hs⟩ := launch_total hw hlen hseeds
  obtain ⟨-, -, -, hmem, -⟩ := launch_keeps hs
  refine ⟨s, hs, fun i => ?_⟩
  rw [hmem, read_writeSeeds nil_wf, read_nil]

/-- Settles O37: the checks refuse in their order, and the first bad seed before them. -/
theorem badLaunchesAreRefused : Obligations.BadLaunchesAreRefused := by
  refine ⟨fun cfg prog seeds hseeds => ?_, fun cfg prog seeds i v rest hseeds => ?_⟩
  · rw [launch_of_admitted hseeds]
    exact ⟨fun hw => boot_of_bad_parameters hw, fun hw hlong => boot_of_too_long hw hlong⟩
  · refine ⟨fun hi => launch_of_bad_seed hseeds ?_ prog, fun hi hv => launch_of_bad_seed hseeds ?_ prog⟩
    · rintro p rfl
      exact preSeed_of_index_outside hi
    · rintro p rfl
      exact preSeed_of_value_outside hi hv

/-- Settles O38: the checks write `FAULT` in strict mode with leftover bytes alone, and then no step is enabled. -/
theorem leftoverBytesFaultOnlyInStrictMode : Obligations.LeftoverBytesFaultOnlyInStrictMode := by
  intro cfg prog seeds hw hlen hseeds
  obtain ⟨s, hs⟩ := launch_total hw hlen hseeds
  obtain ⟨hcfg, hprog, hacc, hmem, hpc⟩ := launch_keeps hs
  obtain ⟨hstrict, hlax⟩ := boot_fault (launch_next hs).2
  refine ⟨s, hs, hcfg, hprog, hacc, hpc, fun i => ?_, fun hleft => ⟨hstrict hleft, ?_⟩, hlax⟩
  · rw [hmem, read_writeSeeds nil_wf, read_nil]
  · have hfault : s.fault ≠ none := by
      rw [hstrict hleft]
      exact Option.some_ne_none _
    exact runSteps_of_not_running (not_running_of_fault hfault) _

/-- Settles O39: the window's list has the clamped bounds built in. -/
theorem windowIsTheClampedSlice : Obligations.WindowIsTheClampedSlice :=
  ⟨fun _ start stop h => ⟨_, exportMemory_of_done h start stop, window_length _ _ _ _, fun _ => window_getElem?⟩,
    fun _ start stop h => exportMemory_of_not_done h start stop, fun _ _ _ => exportMemory_of_negative⟩

/-- Settles O40, from what each reading answers in each of the three phases. -/
theorem hostReadsTheResultAfterTheRun : Obligations.HostReadsTheResultAfterTheRun := by
  refine ⟨fun _ => hostResult_of_done, fun _ _ => hostResult_of_fault, fun s hf => ?_, fun s hr => ?_,
    fun p => ⟨rfl, rfl, fun _ _ => rfl⟩⟩
  · have hlen : (window s.cfg.memCells s.mem 0 s.cfg.memCells).length = s.cfg.memCells := by
      rw [window_length, Nat.min_self, Nat.zero_min, Nat.sub_zero]
    refine ⟨_, if_pos hf, hlen, fun k hk => ?_⟩
    rw [window_getElem? (hlen.symm ▸ hk), Nat.zero_min, Nat.zero_add]
  · exact ⟨hostResult_of_running hr, if_neg (not_not.mpr hr.1),
      fun start stop => exportMemory_of_not_done (not_done_of_running hr) start stop⟩

/-- Settles O45: a cell of a launch reads 0 or one of the seeds. -/
theorem launchStartsInTheValueSet : Obligations.LaunchStartsInTheValueSet := by
  intro cfg prog seeds s h
  obtain ⟨-, -, hacc, hmem, -⟩ := launch_keeps h
  have hcells : ∀ i, s.mem.read i = 0 ∨ s.mem.read i ∈ seeds.map Prod.snd := by
    rw [hmem]
    exact read_writeSeeds_nil_cases seeds
  refine ⟨hacc, hcells, .inl hacc, fun i => ?_⟩
  rcases hcells i with h0 | hseed
  · exact .inl h0
  · exact .inr (.inr (.inl hseed))

/-- Settles O53: what is accepted before the stream, after it and after the checks. -/
theorem eventsOfALaunchComeInOrder : Obligations.EventsOfALaunchComeInOrder := by
  intro cfg es m h hno
  rcases events_of_unloaded (construct_loaded cfg) h hno with
    ⟨⟨p, rfl⟩, hseeds⟩ | ⟨before, prog, rest, q, rfl, hbefore, hq, hrest, hnorest⟩
  · exact .inl ⟨p, rfl, .inl hseeds⟩
  · rcases events_of_loaded hq hrest hnorest with ⟨p, rfl, hafter⟩ | ⟨s, after, k, rfl, rfl, hafter⟩
    · exact .inl ⟨p, rfl, .inr ⟨before, prog, rest, rfl, List.forall_mem_append.mpr ⟨hbefore, hafter⟩⟩⟩
    · exact .inr ⟨s, before, prog, after, k, rfl, rfl, List.forall_mem_append.mpr ⟨hbefore, hafter⟩⟩

/-- Settles O54: a seed does not depend on the stream, so the stream may come before the seeds or after them. -/
theorem launchIsItsEventsInEitherOrder : Obligations.LaunchIsItsEventsInEitherOrder := fun cfg prog seeds =>
  ⟨load_seeds_boot_eq_launch cfg prog seeds, seeds_load_boot_eq_launch cfg prog seeds⟩

/-- Settles O55: of the events a launched machine accepts, a step needs RUNNING; and reset gives reset values with no
stream loaded. -/
theorem onlyResetLeavesAFinishedRun : Obligations.OnlyResetLeavesAFinishedRun := by
  refine ⟨fun s hstop e n h => ?_, fun m => ⟨prepareAgain m.state, ?_, rfl, rfl, read_nil, rfl, rfl, ⟨rfl, rfl⟩, rfl⟩⟩
  · rcases hostEvent_next h with
      ⟨he, -⟩ | ⟨_, _, _, -, hp, -⟩ | ⟨_, _, _, _, -, hp, -⟩ | ⟨_, _, -, hp, -⟩ | ⟨_, t, -, hp, -, ht⟩
    · exact he
    · cases hp
    · cases hp
    · cases hp
    · cases hp
      exact absurd (running_of_step ht) hstop
  · cases m <;> rfl

/-- Settles O56: one invariant lemma for each event. -/
theorem everyEventKeepsTheSessionInvariant : Obligations.EveryEventKeepsTheSessionInvariant := by
  refine ⟨fun cfg => prepareAgain_inv _, fun e m n hm h => ?_⟩
  rcases hostEvent_next h with
    ⟨-, rfl⟩ | ⟨_, p, q, -, rfl, rfl, hload⟩ | ⟨_, _, p, q, -, rfl, rfl, hseed⟩ | ⟨p, s, -, rfl, rfl, hboot⟩ |
      ⟨s, t, -, rfl, rfl, ht⟩
  · exact prepareAgain_inv _
  · exact loadProgram_inv hm hload
  · exact preSeed_inv hm hseed
  · exact boot_inv hm hboot
  · exact step_inv hm ht

end Sys2Proof.Proofs

/-! Whole runs (40_fetch_decode.md section 3, 60_exceptions.md section 3): the first element that faults, and what of the
parameters and the stream no step looks at. -/

namespace Sys2Proof.Proofs

open Sys2Proof.Machine Sys2Proof.Laws

/-! ## The element at `PC` that faults -/

/-- The fault of an instruction that names a cell. -/
theorem faultOf_of_cell_instr {i : Instr} {m : Operand} (hi : i = .ldr m ∨ i = .st m ∨ i = .eq m) (n : Nat) :
    faultOf n (.ok i) = if n ≤ indexOperand m then some (.indexFault m) else none := by
  rcases hi with rfl | rfl | rfl <;> rfl

/-- An instruction that names a cell completes if the cell exists. -/
theorem exec_completes_of_inside {i : Instr} {s : State} {m : Operand} (hi : i = .ldr m ∨ i = .st m ∨ i = .eq m)
    (h : indexOperand m < s.cfg.memCells) : ∃ t, exec i s = .next t ∧ t.fault = s.fault := by
  rcases hi with rfl | rfl | rfl
  · exact ⟨_, exec_ldr_of_inside h, rfl⟩
  · exact ⟨_, exec_st_of_inside h, rfl⟩
  · exact ⟨_, exec_eq_of_inside h, rfl⟩

/-- An element that faults raises its fault. -/
theorem dispatch_of_faultOf_some {s : State} {d : Except DecodeError Instr} {r : Raise}
    (h : faultOf s.cfg.memCells d = some r) : dispatch d s = .next (s.raise r) := by
  cases d with
  | error e => cases h; rfl
  | ok i =>
    obtain ⟨m, rfl | hi⟩ := instr_ldc_or_cell i
    · cases h
    · rw [faultOf_of_cell_instr hi] at h
      split at h
      · next hm => cases h; exact exec_of_outside hi hm
      · cases h

/-- An element that does not fault completes. -/
theorem dispatch_of_faultOf_none {s : State} {d : Except DecodeError Instr}
    (h : faultOf s.cfg.memCells d = none) : ∃ t, dispatch d s = .next t ∧ t.fault = s.fault := by
  cases d with
  | error e => cases h
  | ok i =>
    obtain ⟨m, rfl | hi⟩ := instr_ldc_or_cell i
    · exact ⟨_, exec_ldc m s, rfl⟩
    · rw [faultOf_of_cell_instr hi] at h
      split at h
      · cases h
      · next hm => exact exec_completes_of_inside hi (Nat.lt_of_not_le hm)

/-- A step at an element that does not fault goes on to the next position. -/
theorem step_of_faultOf_none {s : State} (hr : s.isRunning)
    (h : faultOf s.cfg.memCells (decode (fetch s.prog s.pc)) = none) :
    ∃ t, step s = .next t ∧ t.fault = none ∧ t.pc = s.pc + 1 ∧ SameLaunch s t := by
  obtain ⟨t, ht, hf⟩ := dispatch_of_faultOf_none h
  rw [← step_of_running hr] at ht
  have hnone : t.fault = none := hf.trans hr.1
  rcases step_pc_cases ht with ⟨-, hpc⟩ | ⟨hfault, -⟩
  · exact ⟨t, ht, hnone, hpc, step_sameLaunch ht⟩
  · exact absurd hnone hfault

/-! ## The first element that faults -/

theorem firstFault_cons_of_some {n p : Nat} {d : Except DecodeError Instr} {r : Raise}
    (h : faultOf n d = some r) (rest : List (Except DecodeError Instr)) :
    firstFault n p (d :: rest) = some (p, r) := by
  simp only [firstFault, h]

theorem firstFault_cons_of_none {n p : Nat} {d : Except DecodeError Instr} (h : faultOf n d = none)
    (rest : List (Except DecodeError Instr)) : firstFault n p (d :: rest) = firstFault n (p + 1) rest := by
  simp only [firstFault, h]

theorem firstFault_eq_none_iff (n p : Nat) (ds : List (Except DecodeError Instr)) :
    firstFault n p ds = none ↔ ∀ d ∈ ds, faultOf n d = none := by
  induction ds generalizing p with
  | nil => simp [firstFault]
  | cons d ds ih =>
    rw [List.forall_mem_cons]
    cases hd : faultOf n d with
    | none => rw [firstFault_cons_of_none hd, ih]; simp
    | some r => rw [firstFault_cons_of_some hd]; simp

/-- The rest of the decoded stream from `PC` on. -/
def restOfStream (s : State) : List (Except DecodeError Instr) := (decodeStream s.prog).drop s.pc

theorem restOfStream_of_running {s : State} (hr : s.isRunning) :
    restOfStream s = decode (fetch s.prog s.pc) :: (decodeStream s.prog).drop (s.pc + 1) :=
  decodeStream_drop hr.2

/-- After a step to the next position the rest is the old rest without its first element. -/
theorem restOfStream_next {s t : State} (hprog : t.prog = s.prog) (hpc : t.pc = s.pc + 1) :
    restOfStream t = (decodeStream s.prog).drop (s.pc + 1) := by
  rw [restOfStream, hprog, hpc]

/-- A run from `s` raises the first fault of the rest of the stream in the state the elements before it leave. -/
theorem runSteps_of_firstFault_some {n p : Nat} {r : Raise} {s : State} (hn : s.pc + n = instrCount s.prog)
    (hf : s.fault = none) (h : firstFault s.cfg.memCells s.pc (restOfStream s) = some (p, r)) :
    ∃ j, p = s.pc + j ∧ (runSteps j s).fault = none ∧ (runSteps j s).pc = p ∧
      runSteps n s = (runSteps j s).raise r := by
  induction n generalizing s with
  | zero =>
    have hnil : restOfStream s = [] := List.drop_eq_nil_of_le (by rw [decodeStream_length]; omega)
    rw [hnil] at h
    cases h
  | succ n ih =>
    have hr : s.isRunning := ⟨hf, by omega⟩
    rw [restOfStream_of_running hr] at h
    cases hd : faultOf s.cfg.memCells (decode (fetch s.prog s.pc)) with
    | some r' =>
      rw [firstFault_cons_of_some hd] at h
      cases h
      have hstep : step s = .next (s.raise r) := (step_of_running hr).trans (dispatch_of_faultOf_some hd)
      refine ⟨0, rfl, hf, rfl, ?_⟩
      rw [runSteps_succ_of_step hstep]
      exact runSteps_of_not_running (not_running_of_fault (Option.some_ne_none _)) n
    | none =>
      obtain ⟨t, ht, htf, hpc, hcfg, hprog⟩ := step_of_faultOf_none hr hd
      rw [firstFault_cons_of_none hd, ← restOfStream_next hprog hpc, ← hpc, ← hcfg] at h
      obtain ⟨j, hp, hjf, hjpc, hrun⟩ := ih (by rw [hpc, hprog]; omega) htf h
      refine ⟨j + 1, by omega, ?_⟩
      rw [runSteps_succ_of_step ht, runSteps_succ_of_step ht]
      exact ⟨hjf, hjpc, hrun⟩

/-- A run from `s` over elements that do not fault raises nothing. -/
theorem runSteps_of_firstFault_none {n : Nat} {s : State} (hn : s.pc + n = instrCount s.prog)
    (hf : s.fault = none) (h : firstFault s.cfg.memCells s.pc (restOfStream s) = none) :
    (runSteps n s).fault = none := by
  induction n generalizing s with
  | zero => exact hf
  | succ n ih =>
    have hr : s.isRunning := ⟨hf, by omega⟩
    rw [restOfStream_of_running hr] at h
    have hd : faultOf s.cfg.memCells (decode (fetch s.prog s.pc)) = none :=
      (firstFault_eq_none_iff _ _ _).mp h _ List.mem_cons_self
    obtain ⟨t, ht, htf, hpc, hcfg, hprog⟩ := step_of_faultOf_none hr hd
    rw [firstFault_cons_of_none hd, ← restOfStream_next hprog hpc, ← hpc, ← hcfg] at h
    rw [runSteps_succ_of_step ht]
    exact ih (by rw [hpc, hprog]; omega) htf h

section BeforeRun

variable {s : State} (hs : s.beforeRun)

include hs

theorem restOfStream_before_run : restOfStream s = decodeStream s.prog := by
  rw [restOfStream, hs.1, List.drop_zero]

theorem all_steps_before_run : s.pc + instrCount s.prog = instrCount s.prog := by
  rw [hs.1, Nat.zero_add]

/-- A run ends by raising the first fault of the stream, at its position. -/
theorem finalState_of_firstFault_some {p : Nat} {r : Raise}
    (h : firstFault s.cfg.memCells 0 (decodeStream s.prog) = some (p, r)) :
    (runSteps p s).fault = none ∧ (runSteps p s).pc = p ∧ finalState s = (runSteps p s).raise r := by
  rw [← restOfStream_before_run hs, ← hs.1] at h
  obtain ⟨j, hp, hj⟩ := runSteps_of_firstFault_some (all_steps_before_run hs) hs.2 h
  obtain rfl : p = j := by rw [hp, hs.1, Nat.zero_add]
  exact hj

/-- A run over a stream with no fault ends DONE. -/
theorem finalState_of_firstFault_none (h : firstFault s.cfg.memCells 0 (decodeStream s.prog) = none) :
    (finalState s).isDone := by
  rw [← restOfStream_before_run hs, ← hs.1] at h
  have hf : (finalState s).fault = none := runSteps_of_firstFault_none (all_steps_before_run hs) hs.2 h
  have hprog : (finalState s).prog = s.prog := (runSteps_sameLaunch _ s).2
  exact ⟨hf, by rw [hprog, (finalState_of_no_fault hs.1 hf).1]⟩

end BeforeRun

/-! ## What no step looks at -/

/-- The same state on another launch's parameters and stream. -/
def relaunch (cfg : Config) (prog : List Byte) (s : State) : State := { s with cfg := cfg, prog := prog }

/-- Parameters and a stream that a step from `s` cannot tell from its own. -/
structure LooksAlike (cfg : Config) (prog : List Byte) (s : State) : Prop where
  memCells : cfg.memCells = s.cfg.memCells
  constant : ∀ m, constantOperand cfg.cellBits m = constantOperand s.cfg.cellBits m
  count : instrCount prog = instrCount s.prog
  fetch : ∀ p, p < instrCount s.prog → Machine.fetch prog p = Machine.fetch s.prog p

section LooksAlike

variable {cfg : Config} {prog : List Byte} {s t : State}

theorem LooksAlike.of_sameLaunch (h : LooksAlike cfg prog s) (hl : SameLaunch s t) : LooksAlike cfg prog t := by
  obtain ⟨hcfg, hprog⟩ := hl
  obtain ⟨hcells, hconst, hcount, hfetch⟩ := h
  rw [← hcfg] at hcells hconst
  rw [← hprog] at hcount hfetch
  exact ⟨hcells, hconst, hcount, hfetch⟩

/-- An instruction that names a cell does the same on both launches. -/
theorem exec_relaunch_of_cell_instr {i : Instr} {m : Operand} (h : LooksAlike cfg prog s)
    (hi : i = .ldr m ∨ i = .st m ∨ i = .eq m) (ht : exec i s = .next t) :
    exec i (relaunch cfg prog s) = .next (relaunch cfg prog t) := by
  rcases Nat.lt_or_ge (indexOperand m) s.cfg.memCells with hm | hm
  · have hm' : indexOperand m < (relaunch cfg prog s).cfg.memCells := h.memCells.symm ▸ hm
    rcases hi with rfl | rfl | rfl
    · rw [exec_ldr_of_inside hm] at ht
      cases ht
      exact exec_ldr_of_inside hm'
    · rw [exec_st_of_inside hm] at ht
      cases ht
      exact exec_st_of_inside hm'
    · rw [exec_eq_of_inside hm] at ht
      cases ht
      exact exec_eq_of_inside hm'
  · have hm' : (relaunch cfg prog s).cfg.memCells ≤ indexOperand m := h.memCells.symm ▸ hm
    rw [exec_of_outside hi hm] at ht
    cases ht
    exact exec_of_outside hi hm'

theorem exec_relaunch {i : Instr} (h : LooksAlike cfg prog s) (ht : exec i s = .next t) :
    exec i (relaunch cfg prog s) = .next (relaunch cfg prog t) := by
  obtain ⟨m, rfl | hi⟩ := instr_ldc_or_cell i
  · rw [exec_ldc, ← h.constant m] at ht
    cases ht
    exact exec_ldc m _
  · exact exec_relaunch_of_cell_instr h hi ht

theorem isRunning_relaunch_iff (h : LooksAlike cfg prog s) : (relaunch cfg prog s).isRunning ↔ s.isRunning := by
  change s.fault = none ∧ s.pc < instrCount prog ↔ _
  rw [h.count]

theorem step_relaunch (h : LooksAlike cfg prog s) (ht : step s = .next t) :
    step (relaunch cfg prog s) = .next (relaunch cfg prog t) := by
  have hr := running_of_step ht
  have hfetch : fetch (relaunch cfg prog s).prog (relaunch cfg prog s).pc = fetch s.prog s.pc := h.fetch _ hr.2
  rw [step_of_running ((isRunning_relaunch_iff h).mpr hr), hfetch]
  rw [step_of_running hr] at ht
  cases hd : decode (fetch s.prog s.pc) with
  | ok i =>
    rw [hd] at ht
    exact exec_relaunch h ht
  | error e =>
    rw [hd] at ht
    cases ht
    rfl

theorem runSteps_relaunch (h : LooksAlike cfg prog s) (k : Nat) :
    runSteps k (relaunch cfg prog s) = relaunch cfg prog (runSteps k s) := by
  induction k generalizing s with
  | zero => rfl
  | succ k ih =>
    by_cases hr : s.isRunning
    · obtain ⟨t, ht⟩ := (step_enabled_iff s).mpr hr
      rw [runSteps_succ_of_step ht, runSteps_succ_of_step (step_relaunch h ht)]
      exact ih (h.of_sameLaunch (step_sameLaunch ht))
    · rw [runSteps_of_not_running hr, runSteps_of_not_running (mt (isRunning_relaunch_iff h).mp hr)]

end LooksAlike

theorem looksAlike_of_width {s : State} {w : Nat} (hs : 29 ≤ s.cfg.cellBits) (hw : 29 ≤ w) :
    LooksAlike { s.cfg with cellBits := w } s.prog s where
  memCells := rfl
  constant m := by rw [constantOperand_eq hw, constantOperand_eq hs]
  count := rfl
  fetch _ _ := rfl

/-- Bytes after the last whole chunk are in no fetch below `N`. -/
theorem looksAlike_of_leftover {s : State} {rest : List Byte} (hs : s.prog.length % 4 = 0) (hrest : rest.length < 4) :
    LooksAlike s.cfg (s.prog ++ rest) s where
  memCells := rfl
  constant _ := rfl
  count := by
    rw [instrCount, instrCount, List.length_append]
    omega
  fetch p hp := by
    have hget : ∀ k, k < 4 → (s.prog ++ rest).getD (4 * p + k) 0#8 = s.prog.getD (4 * p + k) 0#8 := fun k hk => by
      rw [instrCount] at hp
      exact List.getD_append _ _ _ _ (by omega)
    rw [fetch, fetch, hget 1 (by decide), hget 2 (by decide), hget 3 (by decide)]
    exact congrArg (Chunk.mk · _ _ _) (hget 0 (by decide))

/-! ## The obligations -/

/-- Settles O43: the run raises the first fault in the state its predecessors left. -/
theorem firstFaultInStreamOrderIsReported : Obligations.FirstFaultInStreamOrderIsReported := by
  refine fun s hs => ⟨fun p r h => ?_, finalState_of_firstFault_none hs⟩
  obtain ⟨hf, hpc, hfinal⟩ := finalState_of_firstFault_some hs h
  rw [hfinal, raise_fault, raise_pc, hpc]
  exact ⟨rfl, rfl, _, rfl, hf, fun _ => rfl, rfl⟩

/-- Settles O42: a program meets the obligation exactly when its stream has no first fault. -/
theorem safeProgramsAreThoseThatEndDone : Obligations.SafeProgramsAreThoseThatEndDone := by
  intro s hs
  refine (firstFault_eq_none_iff _ 0 _).symm.trans ⟨finalState_of_firstFault_none hs, fun hdone => ?_⟩
  cases h : firstFault s.cfg.memCells 0 (decodeStream s.prog) with
  | none => rfl
  | some pr =>
    have hfinal := (finalState_of_firstFault_some hs h).2.2
    have hfault := hdone.1
    rw [hfinal, raise_fault] at hfault
    cases hfault

/-- Settles O46: the width is used for the constant of `ldc` alone, which is the same at every admitted width. -/
theorem cellWidthCannotBeObserved : Obligations.CellWidthCannotBeObserved := by
  intro s w k hs hw
  obtain ⟨-, hprog⟩ := runSteps_sameLaunch k s
  exact (runSteps_relaunch (looksAlike_of_width hs hw) k).trans (by rw [relaunch, ← hprog])

/-- Settles O47: the leftover bytes change neither `N` nor a fetch below it. -/
theorem leftoverBytesAreNotLookedAt : Obligations.LeftoverBytesAreNotLookedAt := by
  intro s rest k hs hrest
  obtain ⟨hcfg, -⟩ := runSteps_sameLaunch k s
  exact (runSteps_relaunch (looksAlike_of_leftover hs hrest) k).trans (by rw [relaunch, ← hcfg])

end Sys2Proof.Proofs

/-! The assembler (30_encoding.md section 6): texts as lines and lines as words, the form of a number, and what a line
assembles to. -/

namespace Sys2Proof.Proofs

open Sys2Proof.Machine Sys2Proof.Laws

/-! ## Splitting -/

section SplitOn

variable {sep : Char → Bool}

theorem splitOn_cons_sep {c : Char} (h : sep c = true) (rest : List Char) :
    splitOn sep (c :: rest) = [] :: splitOn sep rest := by
  rw [splitOn, if_pos h]

/-- A character that does not separate stands in the first piece. -/
theorem splitOn_cons_of_not_sep {c : Char} {rest piece : List Char} {more : List (List Char)} (h : sep c = false)
    (hrest : splitOn sep rest = piece :: more) : splitOn sep (c :: rest) = (c :: piece) :: more := by
  simp [splitOn, h, hrest]

theorem splitOn_eq_cons (l : List Char) : ∃ piece more, splitOn sep l = piece :: more := by
  induction l with
  | nil => exact ⟨[], [], rfl⟩
  | cons c rest ih =>
    obtain ⟨piece, more, hrest⟩ := ih
    cases hc : sep c with
    | true => exact ⟨[], _, splitOn_cons_sep hc rest⟩
    | false => exact ⟨_, _, splitOn_cons_of_not_sep hc hrest⟩

/-- The pieces before and after a separator. -/
theorem splitOn_append_sep {c : Char} (h : sep c = true) (before after : List Char) :
    splitOn sep (before ++ c :: after) = splitOn sep before ++ splitOn sep after := by
  induction before with
  | nil => exact splitOn_cons_sep h after
  | cons d before ih =>
    cases hd : sep d with
    | true => rw [List.cons_append, splitOn_cons_sep hd, splitOn_cons_sep hd, ih, List.cons_append]
    | false =>
      obtain ⟨piece, more, hbefore⟩ := splitOn_eq_cons (sep := sep) before
      rw [hbefore, List.cons_append] at ih
      rw [List.cons_append, splitOn_cons_of_not_sep hd ih, splitOn_cons_of_not_sep hd hbefore, List.cons_append]

/-- Without a separator there is one piece. -/
theorem splitOn_of_no_sep {l : List Char} (h : ∀ c ∈ l, sep c = false) : splitOn sep l = [l] := by
  induction l with
  | nil => rfl
  | cons c l ih =>
    obtain ⟨hc, hl⟩ := List.forall_mem_cons.mp h
    exact splitOn_cons_of_not_sep hc (ih hl)

end SplitOn

/-! ## The words of a line -/

theorem tokens_cons_space {c : Char} (h : isSpace c = true) (l : List Char) : tokens (c :: l) = tokens l := by
  rw [tokens, splitOn_cons_sep h, List.filter_cons_of_neg (by simp), tokens]

theorem tokens_spaces_append {spaces : List Char} (h : ∀ c ∈ spaces, isSpace c = true) (l : List Char) :
    tokens (spaces ++ l) = tokens l := by
  induction spaces with
  | nil => rfl
  | cons c spaces ih =>
    obtain ⟨hc, hspaces⟩ := List.forall_mem_cons.mp h
    rw [List.cons_append, tokens_cons_space hc, ih hspaces]

theorem tokens_spaces {spaces : List Char} (h : ∀ c ∈ spaces, isSpace c = true) : tokens spaces = [] := by
  have happend := tokens_spaces_append h []
  rwa [List.append_nil] at happend

/-- Characters that make up a word: some, and none of them white space. -/
def IsWord (w : List Char) : Prop := w ≠ [] ∧ ∀ c ∈ w, isSpace c = false

/-- A word that white space or the end of the line follows is the first token. -/
theorem tokens_word_append {w l : List Char} (hw : IsWord w) (hl : ∀ c ∈ l.head?, isSpace c = true) :
    tokens (w ++ l) = w :: tokens l := by
  obtain ⟨hne, hword⟩ := hw
  cases l with
  | nil => simp [tokens, splitOn, splitOn_of_no_sep hword, hne]
  | cons c rest =>
    have hc : isSpace c = true := hl c rfl
    rw [tokens_cons_space hc, tokens, splitOn_append_sep hc, splitOn_of_no_sep hword, List.singleton_append,
      List.filter_cons_of_pos (by simpa using hne), tokens]

/-- The first token begins with the line's first character, if that is not white space. -/
theorem tokens_cons_of_not_space {c : Char} (h : isSpace c = false) (l : List Char) :
    ∃ w ts, tokens (c :: l) = (c :: w) :: ts := by
  obtain ⟨piece, more, hl⟩ := splitOn_eq_cons (sep := isSpace) l
  exact ⟨piece, _, by rw [tokens, splitOn_cons_of_not_sep h hl, List.filter_cons_of_pos (by simp)]⟩

theorem isSkipped_of_tokens_nil {line : List Char} (h : tokens line = []) : isSkipped line = true := by
  simp only [isSkipped, h]

theorem isSkipped_of_tokens_cons {line w : List Char} {ts : List (List Char)} (h : tokens line = w :: ts) :
    isSkipped line = (w.head? == some '#') := by
  simp only [isSkipped, h]

theorem not_isSkipped_of_tokens {line : List Char} {words : List (List Char)} (h : tokens line = words)
    (hne : words ≠ []) (hhash : (words.headD []).head? ≠ some '#') : isSkipped line = false := by
  cases words with
  | nil => exact absurd rfl hne
  | cons w ts =>
    rw [isSkipped_of_tokens_cons h]
    exact beq_eq_false_iff_ne.mpr hhash

/-! ## Blanks -/

/-- Spaces and tabs only. -/
def Blanks (l : List Char) : Prop := ∀ c ∈ l, c = ' ' ∨ c = '\t'

theorem Blanks.isSpace {l : List Char} (h : Blanks l) : ∀ c ∈ l, isSpace c = true := by
  intro c hc
  rcases h c hc with rfl | rfl <;> rfl

theorem Blanks.isNewline {l : List Char} (h : Blanks l) : ∀ c ∈ l, isNewline c = false := by
  intro c hc
  rcases h c hc with rfl | rfl <;> rfl

theorem Blanks.head_isSpace {blanks l : List Char} (h : Blanks blanks) (hne : blanks ≠ []) :
    ∀ c ∈ (blanks ++ l).head?, Machine.isSpace c = true := by
  cases blanks with
  | nil => exact absurd rfl hne
  | cons b blanks =>
    rintro c ⟨⟩
    exact h.isSpace b List.mem_cons_self

theorem isSkipped_blanks {blanks : List Char} (h : Blanks blanks) : isSkipped blanks = true :=
  isSkipped_of_tokens_nil (tokens_spaces h.isSpace)

theorem isSkipped_comment {blanks : List Char} (h : Blanks blanks) (comment : List Char) :
    isSkipped (blanks ++ '#' :: comment) = true := by
  obtain ⟨w, ts, hts⟩ := tokens_cons_of_not_space (c := '#') rfl comment
  rw [isSkipped_of_tokens_cons ((tokens_spaces_append h.isSpace _).trans hts)]
  rfl

/-! ## The lines of a text -/

theorem sourceLines_append (before after : List Char) :
    sourceLines (before ++ '\n' :: after) = sourceLines before ++ sourceLines after :=
  splitOn_append_sep rfl before after

theorem sourceLines_of_line {line : List Char} (h : ∀ c ∈ line, isNewline c = false) : sourceLines line = [line] :=
  splitOn_of_no_sep h

theorem sourceLines_line_append {line : List Char} (h : ∀ c ∈ line, isNewline c = false) (after : List Char) :
    sourceLines (line ++ '\n' :: after) = line :: sourceLines after := by
  rw [sourceLines_append, sourceLines_of_line h, List.singleton_append]

theorem assembleLines_cons_skipped {line : List Char} (h : isSkipped line = true) (rest : List (List Char)) :
    assembleLines (line :: rest) = assembleLines rest := by
  rw [assembleLines, if_pos h]

theorem assembleLines_cons_error {line : List Char} {e : AsmError} (hs : isSkipped line = false)
    (h : assembleLine line = .error e) (rest : List (List Char)) :
    assembleLines (line :: rest) = .error e := by
  simp [assembleLines, hs, h]

theorem assembleLines_cons_line {line : List Char} {r : RawInstr} (hs : isSkipped line = false)
    (h : assembleLine line = .ok r) (rest : List (List Char)) :
    assembleLines (line :: rest) = (assembleLines rest).map fun rs => r :: rs := by
  simp [assembleLines, hs, h]

/-- What assembles from a first line and the rest depends on the rest only through what the rest assembles to. -/
theorem assembleLines_cons_congr (line : List Char) {a b : List (List Char)}
    (h : assembleLines a = assembleLines b) : assembleLines (line :: a) = assembleLines (line :: b) := by
  rw [assembleLines, assembleLines, h]

theorem assembleLines_remove_skipped {line : List Char} (h : isSkipped line = true)
    (before after : List (List Char)) :
    assembleLines (before ++ line :: after) = assembleLines (before ++ after) := by
  induction before with
  | nil => exact assembleLines_cons_skipped h after
  | cons l before ih => exact assembleLines_cons_congr l ih

/-- A faulty line after lines that assemble is the one reported. -/
theorem assembleLines_append_error {line : List Char} {e : AsmError} {before : List (List Char)}
    {rs : List RawInstr} (hbefore : assembleLines before = .ok rs) (hs : isSkipped line = false)
    (h : assembleLine line = .error e) (after : List (List Char)) :
    assembleLines (before ++ line :: after) = .error e := by
  induction before generalizing rs with
  | nil => exact assembleLines_cons_error hs h after
  | cons l before ih =>
    rw [List.cons_append]
    cases hl : isSkipped l with
    | true =>
      rw [assembleLines_cons_skipped hl] at hbefore ⊢
      exact ih hbefore
    | false =>
      cases hr : assembleLine l with
      | error e' =>
        rw [assembleLines_cons_error hl hr] at hbefore
        cases hbefore
      | ok r =>
        rw [assembleLines_cons_line hl hr] at hbefore ⊢
        cases hrest : assembleLines before with
        | error e' =>
          rw [hrest] at hbefore
          cases hbefore
        | ok rs' =>
          rw [ih hrest]
          rfl

/-- A line that is skipped can be put before a text or removed from there. -/
theorem assemble_skipped_append {line : List Char} (hs : isSkipped line = true)
    (hline : ∀ c ∈ line, isNewline c = false) (after : List Char) :
    assemble (line ++ '\n' :: after) = assemble after := by
  rw [assemble, sourceLines_line_append hline, assembleLines_cons_skipped hs, assemble]

/-- A line that is skipped can be put between two lines of a text or removed from there. -/
theorem assemble_append_skipped {line : List Char} (hs : isSkipped line = true)
    (hline : ∀ c ∈ line, isNewline c = false) (before after : List Char) :
    assemble (before ++ '\n' :: (line ++ '\n' :: after)) = assemble (before ++ '\n' :: after) := by
  rw [assemble, sourceLines_append, sourceLines_line_append hline, assembleLines_remove_skipped hs,
    ← sourceLines_append, assemble]

/-! ## Numbers -/

/-- Decimal digits as characters. -/
def digitChars (digits : List (Fin 10)) : List Char := digits.map fun d => Char.ofNat (48 + d.val)

/-- The number that decimal digits write, after a number already read. -/
def digitsNumber (n : Nat) (digits : List (Fin 10)) : Nat := digits.foldl (fun n d => 10 * n + d.val) n

theorem digitValue_digit (d : Fin 10) : digitValue (Char.ofNat (48 + d.val)) = some d.val := by
  revert d
  decide

theorem isSpace_digit (d : Fin 10) : isSpace (Char.ofNat (48 + d.val)) = false := by
  revert d
  decide

/-- Every character with a digit's value is that digit. -/
theorem digit_of_digitValue {c : Char} {n : Nat} (h : digitValue c = some n) :
    ∃ d : Fin 10, c = Char.ofNat (48 + d.val) := by
  unfold digitValue at h
  split at h
  · next hc =>
    refine ⟨⟨c.toNat - 48, by omega⟩, ?_⟩
    rw [Nat.add_sub_cancel' hc.1, Char.ofNat_toNat]
  · cases h

theorem digitsValue_digitChars (n : Nat) (digits : List (Fin 10)) :
    digitsValue n (digitChars digits) = some (digitsNumber n digits) := by
  induction digits generalizing n with
  | nil => rfl
  | cons d digits ih =>
    simp only [digitChars, List.map_cons, digitsValue, digitValue_digit]
    exact ih _

theorem digitChars_of_digitsValue {l : List Char} {a n : Nat} (h : digitsValue a l = some n) :
    ∃ digits, l = digitChars digits := by
  induction l generalizing a with
  | nil => exact ⟨[], rfl⟩
  | cons c l ih =>
    rw [digitsValue] at h
    split at h
    · next d hd =>
      obtain ⟨k, rfl⟩ := digit_of_digitValue hd
      obtain ⟨digits, rfl⟩ := ih h
      exact ⟨k :: digits, rfl⟩
    · cases h

theorem naturalToken_digitChars {digits : List (Fin 10)} (h : digits ≠ []) :
    naturalToken (digitChars digits) = some (digitsNumber 0 digits) := by
  cases digits with
  | nil => exact absurd rfl h
  | cons d digits => exact digitsValue_digitChars 0 (d :: digits)

theorem digitChars_of_naturalToken {l : List Char} {n : Nat} (h : naturalToken l = some n) :
    ∃ digits, l = digitChars digits ∧ digits ≠ [] := by
  cases l with
  | nil => cases h
  | cons c l =>
    obtain ⟨digits, hl⟩ := digitChars_of_digitsValue h
    refine ⟨digits, hl, ?_⟩
    rintro rfl
    cases hl

theorem isWord_digitChars {digits : List (Fin 10)} (h : digits ≠ []) : IsWord (digitChars digits) := by
  refine ⟨fun hnil => h (List.map_eq_nil_iff.mp hnil), fun c hc => ?_⟩
  obtain ⟨d, -, rfl⟩ := List.mem_map.mp hc
  exact isSpace_digit d

theorem IsWord.cons {c : Char} {w : List Char} (hc : isSpace c = false) (hw : IsWord w) : IsWord (c :: w) :=
  ⟨List.cons_ne_nil c w, List.forall_mem_cons.mpr ⟨hc, hw.2⟩⟩

theorem digit_ne_sign (d : Fin 10) : Char.ofNat (48 + d.val) ≠ '+' ∧ Char.ofNat (48 + d.val) ≠ '-' := by
  revert d
  decide

theorem integerToken_plus (l : List Char) :
    integerToken ('+' :: l) = (naturalToken l).map fun n : Nat => (n : Int) := rfl

theorem integerToken_minus (l : List Char) :
    integerToken ('-' :: l) = (naturalToken l).map fun n : Nat => -(n : Int) := rfl

/-- Without a sign the token is the number. -/
theorem integerToken_of_no_sign {l : List Char} (h : ∀ c ∈ l.head?, c ≠ '+' ∧ c ≠ '-') :
    integerToken l = (naturalToken l).map fun n : Nat => (n : Int) := by
  unfold integerToken
  split
  · exact absurd rfl (h _ rfl).1
  · exact absurd rfl (h _ rfl).2
  · rfl

theorem integerToken_digitChars {digits : List (Fin 10)} (h : digits ≠ []) :
    integerToken (digitChars digits) = some (digitsNumber 0 digits : Int) := by
  rw [integerToken_of_no_sign, naturalToken_digitChars h]
  · rfl
  · cases digits with
    | nil => exact absurd rfl h
    | cons d digits =>
      rintro c ⟨⟩
      exact digit_ne_sign d

/-- The form of an operand: digits after at most one sign. -/
def SignedDigits (l : List Char) : Prop :=
  ∃ (sign : List Char) (digits : List (Fin 10)), l = sign ++ digitChars digits ∧ sign ∈ [[], ['+'], ['-']] ∧ digits ≠ []

/-- The integer tokens are the tokens of that form. -/
theorem integerToken_isSome_iff (l : List Char) : (∃ n, integerToken l = some n) ↔ SignedDigits l := by
  constructor
  · rintro ⟨n, h⟩
    unfold integerToken at h
    split at h
    all_goals
      obtain ⟨k, hk, -⟩ := Option.map_eq_some_iff.mp h
      obtain ⟨digits, rfl, hne⟩ := digitChars_of_naturalToken hk
    · exact ⟨['+'], digits, rfl, by simp, hne⟩
    · exact ⟨['-'], digits, rfl, by simp, hne⟩
    · exact ⟨[], digits, rfl, by simp, hne⟩
  · rintro ⟨sign, digits, rfl, hsign, hne⟩
    simp only [List.mem_cons, List.not_mem_nil, or_false] at hsign
    rcases hsign with rfl | rfl | rfl
    · exact ⟨_, integerToken_digitChars hne⟩
    · exact ⟨_, by rw [List.singleton_append, integerToken_plus, naturalToken_digitChars hne, Option.map_some]⟩
    · exact ⟨_, by rw [List.singleton_append, integerToken_minus, naturalToken_digitChars hne, Option.map_some]⟩

/-! ## The names -/

/-- The four names with their opcodes, as 30_encoding.md R60 lists them. -/
theorem name_of_table {name : List Char} {opcode : Int}
    (h : (name, opcode) ∈ [(['l', 'd', 'c'], (2 : Int)), (['l', 'd', 'r'], 12), (['s', 't'], 11), (['e', 'q'], 7)]) :
    IsWord name ∧ ∃ o : Opcode, mnemonicToOpcode name = .ok o ∧ (o.toNat : Int) = opcode := by
  simp only [List.mem_cons, Prod.mk.injEq, List.not_mem_nil, or_false] at h
  rcases h with ⟨rfl, rfl⟩ | ⟨rfl, rfl⟩ | ⟨rfl, rfl⟩ | ⟨rfl, rfl⟩
  · exact ⟨⟨by simp, by simp [isSpace, mayBeSpace, mayEndLine]⟩, 2#4, rfl, rfl⟩
  · exact ⟨⟨by simp, by simp [isSpace, mayBeSpace, mayEndLine]⟩, 12#4, rfl, rfl⟩
  · exact ⟨⟨by simp, by simp [isSpace, mayBeSpace, mayEndLine]⟩, 11#4, rfl, rfl⟩
  · exact ⟨⟨by simp, by simp [isSpace, mayBeSpace, mayEndLine]⟩, 7#4, rfl, rfl⟩

/-- The name is one of the four mnemonics. -/
def KnownName (name : List Char) : Prop := name ∈ [['l', 'd', 'c'], ['l', 'd', 'r'], ['s', 't'], ['e', 'q']]

theorem mnemonicToOpcode_of_known {name : List Char} (h : KnownName name) : ∃ o, mnemonicToOpcode name = .ok o := by
  simp only [KnownName, List.mem_cons, List.not_mem_nil, or_false] at h
  rcases h with rfl | rfl | rfl | rfl
  · exact ⟨2#4, rfl⟩
  · exact ⟨12#4, rfl⟩
  · exact ⟨11#4, rfl⟩
  · exact ⟨7#4, rfl⟩

theorem mnemonicToOpcode_of_unknown {name : List Char} (h : ¬ KnownName name) :
    mnemonicToOpcode name = .error .unknownMnemonic := by
  simp only [KnownName, List.mem_cons, List.not_mem_nil, or_false, not_or] at h
  simp [mnemonicToOpcode, h]

/-! ## What a line of words assembles to -/

/-- The form of a line's words: a name, then digits after at most one sign. -/
def Formed (words : List (List Char)) : Prop :=
  ∃ (name sign : List Char) (digits : List (Fin 10)),
    words = [name, sign ++ digitChars digits] ∧ sign ∈ [[], ['+'], ['-']] ∧ digits ≠ []

theorem operandOfTokens_isSome_iff (words : List (List Char)) :
    (∃ n, operandOfTokens words = some n) ↔ Formed words := by
  constructor
  · rintro ⟨n, h⟩
    unfold operandOfTokens at h
    split at h
    · next name w =>
      obtain ⟨sign, digits, rfl, hsign, hne⟩ := (integerToken_isSome_iff w).mp ⟨n, h⟩
      exact ⟨name, sign, digits, rfl, hsign, hne⟩
    · cases h
  · rintro ⟨name, sign, digits, rfl, hsign, hne⟩
    exact (integerToken_isSome_iff _).mpr ⟨sign, digits, rfl, hsign, hne⟩

theorem operandOfTokens_of_not_formed {words : List (List Char)} (h : ¬ Formed words) :
    operandOfTokens words = none := by
  rw [← operandOfTokens_isSome_iff] at h
  exact Option.eq_none_iff_forall_ne_some.mpr fun n hn => h ⟨n, hn⟩

section AssembleLine

variable {line : List Char} {words : List (List Char)} (hline : tokens line = words)

include hline

theorem assembleLine_of_words {o : Opcode} {n : Int} (hname : mnemonicToOpcode (words.headD []) = .ok o)
    (hoperand : operandOfTokens words = some n) : assembleLine line = .ok ⟨o.toNat, n⟩ := by
  simp only [assembleLine, mnemonicOfTokens, hline, hname, hoperand]

/-- A line of the wrong form with a known name. -/
theorem assembleLine_of_not_formed (hknown : KnownName (words.headD [])) (hformed : ¬ Formed words) :
    assembleLine line = .error .malformedLine := by
  obtain ⟨o, ho⟩ := mnemonicToOpcode_of_known hknown
  simp only [assembleLine, mnemonicOfTokens, hline, ho, operandOfTokens_of_not_formed hformed]

/-- A line of the right form with an unknown name. -/
theorem assembleLine_of_unknown (hknown : ¬ KnownName (words.headD [])) (hformed : Formed words) :
    assembleLine line = .error .unknownMnemonic := by
  obtain ⟨n, hn⟩ := (operandOfTokens_isSome_iff words).mpr hformed
  simp only [assembleLine, mnemonicOfTokens, hline, mnemonicToOpcode_of_unknown hknown, hn]

/-- A line with either defect, or both, is an error. -/
theorem assembleLine_of_defect (h : ¬ KnownName (words.headD []) ∨ ¬ Formed words) :
    ∃ e, assembleLine line = .error e := by
  by_cases hknown : KnownName (words.headD [])
  · exact ⟨_, assembleLine_of_not_formed hline hknown (h.resolve_left (not_not.mpr hknown))⟩
  · by_cases hformed : Formed words
    · exact ⟨_, assembleLine_of_unknown hline hknown hformed⟩
    · refine ⟨if Config.twoDefectsAreSyntaxError line then .malformedLine else .unknownMnemonic, ?_⟩
      simp only [assembleLine, mnemonicOfTokens, hline, mnemonicToOpcode_of_unknown hknown,
        operandOfTokens_of_not_formed hformed]

end AssembleLine

/-! ## Lines of words between blanks -/

theorem Blanks.head?_isSpace {blanks : List Char} (h : Blanks blanks) : ∀ c ∈ blanks.head?, Machine.isSpace c = true :=
  fun c hc => h.isSpace c (List.mem_of_mem_head? hc)

/-- The words of a line: each of the first with the blanks after it, then the last, with blanks around them. -/
theorem tokens_words {lead trail last : List Char} {others : List (List Char × List Char)} (hlead : Blanks lead)
    (htrail : Blanks trail) (hlast : IsWord last)
    (hothers : ∀ p ∈ others, IsWord p.1 ∧ Blanks p.2 ∧ p.2 ≠ []) :
    tokens (lead ++ others.flatMap (fun p => p.1 ++ p.2) ++ last ++ trail) = others.map Prod.fst ++ [last] := by
  rw [List.append_assoc, List.append_assoc, tokens_spaces_append hlead.isSpace]
  induction others with
  | nil =>
    rw [List.flatMap_nil, List.nil_append, tokens_word_append hlast htrail.head?_isSpace, tokens_spaces htrail.isSpace]
    rfl
  | cons p others ih =>
    obtain ⟨⟨hword, hgap, hne⟩, hrest⟩ := List.forall_mem_cons.mp hothers
    rw [List.flatMap_cons, List.append_assoc, List.append_assoc, tokens_word_append hword (hgap.head_isSpace hne),
      tokens_spaces_append hgap.isSpace, ih hrest]
    rfl

theorem tokens_two_words {lead gap trail name w : List Char} (hlead : Blanks lead) (hgap : Blanks gap)
    (htrail : Blanks trail) (hne : gap ≠ []) (hname : IsWord name) (hw : IsWord w) :
    tokens (lead ++ name ++ gap ++ w ++ trail) = [name, w] := by
  have hwords := tokens_words (others := [(name, gap)]) hlead htrail hw
    (List.forall_mem_singleton.mpr ⟨hname, hgap, hne⟩)
  rwa [List.flatMap_singleton, ← List.append_assoc] at hwords

/-- A character of a word, none of those whose treatment is open (log 8). -/
def WordChar (c : Char) : Prop := c ≠ ' ' ∧ c ≠ '\t' ∧ c ≠ '\n' ∧ mayBeSpace c = false

theorem WordChar.isSpace {c : Char} (h : WordChar c) : isSpace c = false := by
  obtain ⟨hspace, htab, -, hopen⟩ := h
  simp [Machine.isSpace, hspace, htab, hopen]

theorem WordChar.isNewline {c : Char} (h : WordChar c) : isNewline c = false := by
  obtain ⟨-, -, hfeed, hopen⟩ := h
  have hend : mayEndLine c = false := by
    cases hc : mayEndLine c with
    | false => rfl
    | true => simp [mayBeSpace, hc] at hopen
  simp [Machine.isNewline, hfeed, hend]

/-- A word of such characters. -/
def WrittenWord (w : List Char) : Prop := w ≠ [] ∧ ∀ c ∈ w, WordChar c

theorem WrittenWord.isWord {w : List Char} (h : WrittenWord w) : IsWord w := ⟨h.1, fun c hc => (h.2 c hc).isSpace⟩

theorem WrittenWord.isNewline {w : List Char} (h : WrittenWord w) : ∀ c ∈ w, isNewline c = false :=
  fun c hc => (h.2 c hc).isNewline

/-- Words and blanks end no line. -/
theorem isNewline_words {lead trail last : List Char} {others : List (List Char × List Char)} (hlead : Blanks lead)
    (htrail : Blanks trail) (hlast : WrittenWord last) (hothers : ∀ p ∈ others, WrittenWord p.1 ∧ Blanks p.2) :
    ∀ c ∈ lead ++ others.flatMap (fun p => p.1 ++ p.2) ++ last ++ trail, isNewline c = false := by
  have hmiddle : ∀ c ∈ others.flatMap (fun p => p.1 ++ p.2), isNewline c = false := by
    intro c hc
    obtain ⟨p, hp, hcp⟩ := List.mem_flatMap.mp hc
    obtain ⟨hword, hgap⟩ := hothers p hp
    exact List.forall_mem_append.mpr ⟨hword.isNewline, hgap.isNewline⟩ c hcp
  simp only [List.forall_mem_append]
  exact ⟨⟨⟨hlead.isNewline, hmiddle⟩, hlast.isNewline⟩, htrail.isNewline⟩

/-! ## A faulty line in a text -/

/-- A text that is this line, or has it after lines that assemble and before any others. -/
def FirstFaultyLine (line text : List Char) : Prop :=
  text = line ∨ ∃ before after rs, assemble before = .ok rs ∧ text = before ++ '\n' :: (line ++ '\n' :: after)

theorem assemble_of_faulty_line {line text : List Char} {e : AsmError} (hline : ∀ c ∈ line, isNewline c = false)
    (hs : isSkipped line = false) (he : assembleLine line = .error e) (htext : FirstFaultyLine line text) :
    assemble text = .error e := by
  rcases htext with rfl | ⟨before, after, rs, hbefore, rfl⟩
  · rw [assemble, sourceLines_of_line hline]
    exact assembleLines_cons_error hs he []
  · rw [assemble, sourceLines_append, sourceLines_line_append hline]
    exact assembleLines_append_error hbefore hs he _

/-! ## The obligations -/

/-- Settles O50: only the table's opcodes have a name that is looked up, and each of the four names gives its own. -/
theorem mnemonicTableInverts : Obligations.MnemonicTableInverts := by
  refine fun opcode => ⟨mnemonicToOpcode_ok, fun h => ?_⟩
  simp only [List.mem_cons, List.not_mem_nil, or_false] at h
  rcases h with rfl | rfl | rfl | rfl <;> rfl

/-- Settles O51: such a line is skipped, and it ends where its line feed stands. -/
theorem blankAndCommentLinesCanBeRemoved : Obligations.BlankAndCommentLinesCanBeRemoved := by
  intro blanks comment before after hblanks hcomment
  have hb : Blanks blanks := hblanks
  have hline : ∀ c ∈ blanks ++ '#' :: comment, isNewline c = false :=
    List.forall_mem_append.mpr ⟨hb.isNewline, List.forall_mem_cons.mpr ⟨rfl, hcomment⟩⟩
  exact ⟨assemble_skipped_append (isSkipped_blanks hb) hb.isNewline after,
    assemble_skipped_append (isSkipped_comment hb comment) hline after,
    assemble_append_skipped (isSkipped_blanks hb) hb.isNewline before after,
    assemble_append_skipped (isSkipped_comment hb comment) hline before after⟩

/-- Settles O57: the line's tokens are the name and the number, with its sign. -/
theorem writtenLinesAssembleToTheirPair : Obligations.WrittenLinesAssembleToTheirPair := by
  intro lead gap trail digits name opcode hblanks hgap hdigits htable
  obtain ⟨hword, o, ho, rfl⟩ := name_of_table htable
  obtain ⟨hleadgap, htrail⟩ := List.forall_mem_append.mp hblanks
  obtain ⟨hlead, hgapBlanks⟩ := List.forall_mem_append.mp hleadgap
  have hnumber : IsWord (digitChars digits) := isWord_digitChars hdigits
  have hline : ∀ {w : List Char} {n : Int}, IsWord w → integerToken w = some n →
      assembleLine (lead ++ name ++ gap ++ w ++ trail) = .ok ⟨o.toNat, n⟩ := fun hw hn =>
    assembleLine_of_words (tokens_two_words hlead hgapBlanks htrail hgap hword hw) ho hn
  refine ⟨hline hnumber (integerToken_digitChars hdigits), hline (hnumber.cons rfl) ?_, hline (hnumber.cons rfl) ?_⟩
  · exact (integerToken_plus _).trans (congrArg _ (naturalToken_digitChars hdigits))
  · exact (integerToken_minus _).trans (congrArg _ (naturalToken_digitChars hdigits))

/-- Settles O58: the line's tokens are its words, and the two defects decide what it answers. -/
theorem wrongLinesAreErrors : Obligations.WrongLinesAreErrors := by
  intro lead trail last others words line hblanks hgaps hwords hhash known formed text htext
  obtain ⟨hleadgaps, htrail⟩ := List.forall_mem_append.mp hblanks
  obtain ⟨hlead, hgapBlanks⟩ := List.forall_mem_append.mp hleadgaps
  obtain ⟨hfirst, hlasts⟩ := List.forall_mem_append.mp hwords
  have hlast : WrittenWord last := hlasts last List.mem_cons_self
  have hothers : ∀ p ∈ others, WrittenWord p.1 ∧ Blanks p.2 := fun p hp =>
    ⟨hfirst p.1 (List.mem_map_of_mem hp), fun c hc => hgapBlanks c (List.mem_flatMap.mpr ⟨p, hp, hc⟩)⟩
  have htokens : tokens line = words := tokens_words hlead htrail hlast.isWord fun p hp =>
    ⟨(hothers p hp).1.isWord, (hothers p hp).2, hgaps p hp⟩
  have hskip : isSkipped line = false := not_isSkipped_of_tokens htokens (by simp [words]) hhash
  have herror : ∀ {e}, assembleLine line = .error e → assemble text = .error e := fun he =>
    assemble_of_faulty_line (isNewline_words hlead htrail hlast hothers) hskip he htext
  refine ⟨fun hdefect => ?_, fun hknown hformed => herror (assembleLine_of_not_formed htokens hknown hformed),
    fun hknown hformed => herror (assembleLine_of_unknown htokens hknown hformed)⟩
  obtain ⟨e, he⟩ := assembleLine_of_defect htokens hdefect
  exact ⟨e, herror he⟩

end Sys2Proof.Proofs
